-- ==== Sys2Proof/Word.lean ====
section
/-!
DEFINITION. The words of the block's port and registers (spec 00_scope.md R9, 30_encoding.md R60, R61).
Every value of the spec is unsigned (R10), so a word is a plain bit vector.
-/
namespace Sys2Proof

/-- A register, WDATA or RDATA: 32 bits (R9). -/
abbrev Word := BitVec 32

/-- A message byte (R11). -/
abbrev Byte := BitVec 8

/-- ADDR: a byte offset inside the block's 256-byte window (R40, R60). -/
abbrev Offset := BitVec 8

/-- SIZE: the transfer size field (R60, R62). -/
abbrev SizeCode := BitVec 2

/-- A transaction word `TW = (WE, SIZE, ADDR, WDATA)`: the notation for the port's signals in one transaction (R61). -/
abbrev TW := BitVec 43

end Sys2Proof
end

