-- ==== Sys2Proof/Syntax.lean ====
section
/-!
DEFINITION. The block's instructions are the transactions on its port: one constructor for each row of spec/opcode_table.json
(30_encoding.md R65). A constructor's arguments are the row's operand fields, the ignored ones included (log entry 8), so a
transaction word and its instruction hold the same bits. Beside it, the names the rules use for the registers and for a row of the table.
-/
namespace Sys2Proof

/-- The sixteen rows of the opcode table (R65). -/
inductive Instr where
  /-- CMD.NOP: command value 0 written to CTRL (R106). -/
  | cmdNop
  /-- CMD.INIT: command value 1 (R101). -/
  | cmdInit
  /-- CMD.VERIFY: command value 2 (R102). -/
  | cmdVerify
  /-- CMD.CLRERR: command value 3 (R103). -/
  | cmdClrerr
  /-- CMD.RSVD: any other command value `c` (R105). -/
  | cmdRsvd (c : BitVec 32)
  /-- DIN.B: absorb the byte `b`. `x` is `WDATA[31:8]`, ignored (R121). -/
  | dinB (x : BitVec 24) (b : BitVec 8)
  /-- DIN.H: absorb the two bytes of `h`. `x` is `WDATA[31:16]`, ignored (R122). -/
  | dinH (x : BitVec 16) (h : BitVec 16)
  /-- DIN.W: absorb the four bytes of `w` (R123). -/
  | dinW (w : BitVec 32)
  /-- WR.EXPECT: write `v` to EXPECT (R140). -/
  | wrExpect (v : BitVec 32)
  /-- RD.STATUS. `x` is WDATA, ignored (R141). -/
  | rdStatus (x : BitVec 32)
  /-- RD.EXPECT. `x` is WDATA, ignored (R142). -/
  | rdExpect (x : BitVec 32)
  /-- RD.RESULT. `x` is WDATA, ignored (R143). -/
  | rdResult (x : BitVec 32)
  /-- RD.STATE. `x` is WDATA, ignored (R144). -/
  | rdState (x : BitVec 32)
  /-- RD.COUNT. `x` is WDATA, ignored (R145). -/
  | rdCount (x : BitVec 32)
  /-- RD.ACTUAL. `x` is WDATA, ignored (R146). -/
  | rdActual (x : BitVec 32)
  /-- ACC.ILLEGAL: any transaction word `a` that is no other row's (R147). -/
  | accIllegal (a : BitVec 43)
deriving DecidableEq, Repr

/-- The eight memory-mapped registers (10_state.md R22). -/
inductive Reg where
  | ctrl | status | din | expect | result | state | count | actual
deriving DecidableEq, Repr

/-- One row of the opcode table: it matches the words with `tw &&& mask = value`, and rows are tried by rising priority (R65). -/
structure OpcodeRow where
  priority : Nat
  value : TW
  mask : TW
deriving DecidableEq, Repr

/-- Why a number is turned away by the decoder. The decoder itself refuses no transaction word (R65). -/
inductive DecodeError where
  /-- The number has a bit above bit 42, so it is no 43-bit transaction word (R61, R63). Safe: the block has no such signal. -/
  | notATransactionWord
deriving DecidableEq, Repr

end Sys2Proof
end

