-- ==== Sys2Proof/Decode.lean ====
section
/-!
DEFINITION. The transaction word's fields, the decoder, the legality formula, the opcode table as data, and the encoder
(30_encoding.md R61 to R67, 43_register_access.md R147, R148).
-/
namespace Sys2Proof

/-! ## Fields of a transaction word (R61) -/

/-- WE: bit 42, set for a write. -/
def TW.we (tw : TW) : Bool := tw.getLsbD 42

/-- SIZE: bits 41:40. -/
def TW.size (tw : TW) : SizeCode := tw.extractLsb' 40 2

/-- ADDR: bits 39:32. -/
def TW.addr (tw : TW) : Offset := tw.extractLsb' 32 8

/-- WDATA: bits 31:0. -/
def TW.wdata (tw : TW) : Word := tw.extractLsb' 0 32

/-- The word `(WE, SIZE, ADDR, WDATA)`, WE the most significant bit (R61). -/
def TW.ofFields (we : Bool) (size : SizeCode) (addr : Offset) (wdata : Word) : TW :=
  BitVec.cast (n := 1 + 2 + 8 + 32) (by decide) (BitVec.ofBool we ++ size ++ addr ++ wdata)

/-- The WDATA of a DIN.B row: 24 ignored bits above the byte (R121). -/
def wdataOfByte (x : BitVec 24) (b : BitVec 8) : Word := BitVec.cast (n := 24 + 8) (by decide) (x ++ b)

/-- The WDATA of a DIN.H row: 16 ignored bits above the two bytes (R122). -/
def wdataOfHalf (x : BitVec 16) (h : BitVec 16) : Word := BitVec.cast (n := 16 + 16) (by decide) (x ++ h)

/-! ## Decoding (R66) -/

/-- A command write is told apart by its whole 32-bit value (R66, R100). -/
def decodeCommand (wdata : Word) : Instr :=
  if wdata = 0#32 then .cmdNop
  else if wdata = 1#32 then .cmdInit
  else if wdata = 2#32 then .cmdVerify
  else if wdata = 3#32 then .cmdClrerr
  else .cmdRsvd wdata

/-- The instruction a transaction word names. Total: every word decodes (R65, R66, R148). -/
def decode (tw : TW) : Instr :=
  if tw.we = true ∧ tw.size = 0b10#2 ∧ tw.addr = 0x00#8 then decodeCommand tw.wdata
  else if tw.we = true ∧ tw.addr = 0x08#8 ∧ tw.size = 0b00#2 then
    .dinB (tw.wdata.extractLsb' 8 24) (tw.wdata.extractLsb' 0 8)
  else if tw.we = true ∧ tw.addr = 0x08#8 ∧ tw.size = 0b01#2 then
    .dinH (tw.wdata.extractLsb' 16 16) (tw.wdata.extractLsb' 0 16)
  else if tw.we = true ∧ tw.addr = 0x08#8 ∧ tw.size = 0b10#2 then .dinW tw.wdata
  else if tw.we = true ∧ tw.addr = 0x0C#8 ∧ tw.size = 0b10#2 then .wrExpect tw.wdata
  else if tw.we = false ∧ tw.size = 0b10#2 ∧ tw.addr = 0x04#8 then .rdStatus tw.wdata
  else if tw.we = false ∧ tw.size = 0b10#2 ∧ tw.addr = 0x0C#8 then .rdExpect tw.wdata
  else if tw.we = false ∧ tw.size = 0b10#2 ∧ tw.addr = 0x10#8 then .rdResult tw.wdata
  else if tw.we = false ∧ tw.size = 0b10#2 ∧ tw.addr = 0x14#8 then .rdState tw.wdata
  else if tw.we = false ∧ tw.size = 0b10#2 ∧ tw.addr = 0x18#8 then .rdCount tw.wdata
  else if tw.we = false ∧ tw.size = 0b10#2 ∧ tw.addr = 0x1C#8 then .rdActual tw.wdata
  else .accIllegal tw

/-- Decoding of a number: one with a bit above bit 42 is no transaction word and is turned away by name. -/
def decodeNat (w : Nat) : Except DecodeError Instr :=
  if w < 2 ^ 43 then .ok (decode (BitVec.ofNat 43 w)) else .error .notATransactionWord

/-- The decoder's reading of an instruction whose bits are `w`, bit 0 the word's least significant bit. `nbits` is the table's width for the
row in whole bytes (48): the bits from 43 up have no signal, so they must be 0 (log entry 10). -/
def decodeTableWord (nbits w : Nat) : Option Instr :=
  (decodeNat (w % 2 ^ nbits)).toOption

/-! ## Which transactions are legal -/

/-- `legal(TW)` of R147, its five conditions in the order the spec gives them: size, alignment, mapping, direction, width. -/
def legal (tw : TW) : Bool :=
  tw.size != 0b11#2
    && tw.addr.extractLsb' 0 2 == 0b00#2
    && decide (tw.addr ≤ 0x1C#8)
    && !(!tw.we && (tw.addr == 0x00#8 || tw.addr == 0x08#8))
    && !(tw.we && (tw.addr == 0x04#8 || tw.addr == 0x10#8 || tw.addr == 0x14#8 || tw.addr == 0x18#8 || tw.addr == 0x1C#8))
    && (tw.addr == 0x08#8 || tw.size == 0b10#2)

/-- A register's byte offset inside the window (R22). -/
def Reg.offset : Reg → Offset
  | .ctrl => 0x00#8
  | .status => 0x04#8
  | .din => 0x08#8
  | .expect => 0x0C#8
  | .result => 0x10#8
  | .state => 0x14#8
  | .count => 0x18#8
  | .actual => 0x1C#8

/-- The SIZE codes accepted for a read (`we = false`) or a write of a register: the table of R48, with the codes of R62. -/
def Reg.acceptedSizes (we : Bool) : Reg → List SizeCode
  | .ctrl => if we then [0b10#2] else []
  | .status => if we then [] else [0b10#2]
  | .din => if we then [0b00#2, 0b01#2, 0b10#2] else []
  | .expect => [0b10#2]
  | .result => if we then [] else [0b10#2]
  | .state => if we then [] else [0b10#2]
  | .count => if we then [] else [0b10#2]
  | .actual => if we then [] else [0b10#2]

/-- The registers in the order of R22's table. -/
def Reg.all : List Reg := [.ctrl, .status, .din, .expect, .result, .state, .count, .actual]

/-- The combination is in R48's table: some register stands at ADDR and accepts SIZE in this direction. -/
def accepted (tw : TW) : Bool :=
  Reg.all.any fun r => r.offset == tw.addr && (r.acceptedSizes tw.we).contains tw.size

/-! ## The opcode table as data (R65, spec/opcode_table.json) -/

/-- The rows of spec/opcode_table.json, in priority order. -/
def opcodeTable : List OpcodeRow :=
  [ ⟨1, 0x60000000000#43, 0x7FFFFFFFFFF#43⟩,   -- CMD.NOP
    ⟨2, 0x60000000001#43, 0x7FFFFFFFFFF#43⟩,   -- CMD.INIT
    ⟨3, 0x60000000002#43, 0x7FFFFFFFFFF#43⟩,   -- CMD.VERIFY
    ⟨4, 0x60000000003#43, 0x7FFFFFFFFFF#43⟩,   -- CMD.CLRERR
    ⟨5, 0x60000000000#43, 0x7FF00000000#43⟩,   -- CMD.RSVD
    ⟨6, 0x40800000000#43, 0x7FF00000000#43⟩,   -- DIN.B
    ⟨7, 0x50800000000#43, 0x7FF00000000#43⟩,   -- DIN.H
    ⟨8, 0x60800000000#43, 0x7FF00000000#43⟩,   -- DIN.W
    ⟨9, 0x60C00000000#43, 0x7FF00000000#43⟩,   -- WR.EXPECT
    ⟨10, 0x20400000000#43, 0x7FF00000000#43⟩,  -- RD.STATUS
    ⟨11, 0x20C00000000#43, 0x7FF00000000#43⟩,  -- RD.EXPECT
    ⟨12, 0x21000000000#43, 0x7FF00000000#43⟩,  -- RD.RESULT
    ⟨13, 0x21400000000#43, 0x7FF00000000#43⟩,  -- RD.STATE
    ⟨14, 0x21800000000#43, 0x7FF00000000#43⟩,  -- RD.COUNT
    ⟨15, 0x21C00000000#43, 0x7FF00000000#43⟩,  -- RD.ACTUAL
    ⟨16, 0x00000000000#43, 0x00000000000#43⟩ ] -- ACC.ILLEGAL

/-- The row matches the word: `TW & mask = match` (R65). -/
def OpcodeRow.matchesWord (r : OpcodeRow) (tw : TW) : Bool := (tw &&& r.mask) == r.value

/-- The priority of the first row that matches (R65). -/
def firstRow (tw : TW) : Option Nat :=
  (opcodeTable.find? fun r => r.matchesWord tw).map (·.priority)

/-- The priority of an instruction's row in the table (R65). -/
def Instr.priority : Instr → Nat
  | .cmdNop => 1
  | .cmdInit => 2
  | .cmdVerify => 3
  | .cmdClrerr => 4
  | .cmdRsvd _ => 5
  | .dinB _ _ => 6
  | .dinH _ _ => 7
  | .dinW _ => 8
  | .wrExpect _ => 9
  | .rdStatus _ => 10
  | .rdExpect _ => 11
  | .rdResult _ => 12
  | .rdState _ => 13
  | .rdCount _ => 14
  | .rdActual _ => 15
  | .accIllegal _ => 16

/-! ## Encoding (R61, R65, R70) -/

/-- The transaction word of an instruction. -/
def encode : Instr → TW
  | .cmdNop => TW.ofFields true 0b10#2 0x00#8 0#32
  | .cmdInit => TW.ofFields true 0b10#2 0x00#8 1#32
  | .cmdVerify => TW.ofFields true 0b10#2 0x00#8 2#32
  | .cmdClrerr => TW.ofFields true 0b10#2 0x00#8 3#32
  | .cmdRsvd c => TW.ofFields true 0b10#2 0x00#8 c
  | .dinB x b => TW.ofFields true 0b00#2 0x08#8 (wdataOfByte x b)
  | .dinH x h => TW.ofFields true 0b01#2 0x08#8 (wdataOfHalf x h)
  | .dinW w => TW.ofFields true 0b10#2 0x08#8 w
  | .wrExpect v => TW.ofFields true 0b10#2 0x0C#8 v
  | .rdStatus x => TW.ofFields false 0b10#2 0x04#8 x
  | .rdExpect x => TW.ofFields false 0b10#2 0x0C#8 x
  | .rdResult x => TW.ofFields false 0b10#2 0x10#8 x
  | .rdState x => TW.ofFields false 0b10#2 0x14#8 x
  | .rdCount x => TW.ofFields false 0b10#2 0x18#8 x
  | .rdActual x => TW.ofFields false 0b10#2 0x1C#8 x
  | .accIllegal a => a

end Sys2Proof
end

