-- ==== Sys2Proof/Machine/Crc.lean ====
section
/-!
DEFINITION. The CRC-32/ISO-HDLC function (40_crc_function.md R82 to R89). The constants are the spec's R82, which it marks
as general knowledge (log entry 11).
-/
namespace Sys2Proof.Machine

/-! ## Constants (R82) -/

/-- The generator polynomial in normal form, its x^32 term omitted. -/
def polyNormal : Word := 0x04C11DB7#32

/-- The generator polynomial in reflected form: the normal form's bits in reverse order. -/
def polyReflected : Word := 0xEDB88320#32

/-- The initial register value. -/
def initialValue : Word := 0xFFFFFFFF#32

/-- The final XOR. -/
def finalXor : Word := 0xFFFFFFFF#32

/-- The raw register after a message followed by its CRC, least significant byte first (R94). -/
def residue : Word := 0xDEBB20E3#32

/-! ## The register and its update (R83 to R87) -/

/-- One turn of R84's loop: shift right, and fold the polynomial in when the bit that leaves is 1. -/
def crcBit (s : Word) : Word :=
  if s.getLsbD 0 then (s >>> 1) ^^^ polyReflected else s >>> 1

/-- `n` turns of the loop. -/
def crcBits : Nat → Word → Word
  | 0, s => s
  | n + 1, s => crcBits n (crcBit s)

/-- `crc_byte(s, b)` (R84). -/
def crcByte (s : Word) (b : Byte) : Word := crcBits 8 (s ^^^ b.setWidth 32)

/-- `absorb(s, m)` (R85). The two values R169 derives from it are printed at each other's message (log entry 17). -/
def absorb : Word → List Byte → Word
  | s, [] => s
  | s, b :: m => absorb (crcByte s b) m

/-- `finalize(s)` (R86). -/
def finalize (s : Word) : Word := s ^^^ finalXor

/-- `CRC32(m)` (R87). -/
def crc32 (m : List Byte) : Word := finalize (absorb initialValue m)

/-! ## The equivalent forms (R88, R89) -/

/-- The entry `T[i]` of the table form (R89). -/
def crcTable (i : Byte) : Word := crcByte 0#32 i

/-- The table form of `crc_byte` (R89). -/
def crcByteByTable (s : Word) (b : Byte) : Word :=
  (s >>> 8) ^^^ crcTable ((s ^^^ b.setWidth 32).extractLsb' 0 8)

/-- Serial bit `j` of a message: bit `k` of byte `i` is serial bit `8 i + k` (R88). Past the end, false. -/
def serialBit (m : List Byte) (j : Nat) : Bool :=
  (m.getD (j / 8) 0#8).getLsbD (j % 8)

/-- Bytewise exclusive OR of two messages (R90). -/
def xorBytes (a b : List Byte) : List Byte := List.zipWith (· ^^^ ·) a b

end Sys2Proof.Machine
end

