-- ==== Sys2Proof/Machine/State.lean ====
section
/-!
DEFINITION. The block's state (10_state.md R22 to R36), the port it is driven through (30_encoding.md R60), its reset
value (R33), and the reasons a step could stop.
-/
namespace Sys2Proof.Machine

/-- The complete state of the block: the tuple of R34, 4 x 32 + 5 = 133 bits. CTRL, DIN and RESULT hold no storage (R29, R30, R31), and the reserved
bits of STATUS always read 0 (R27), so none of them has a field. -/
structure Block where
  /-- STATE: the raw CRC shift register, reflected convention (R23, R83). -/
  state : Word
  /-- COUNT: message bytes absorbed since INIT or reset, modulo 2^32 (R24). -/
  count : Word
  /-- EXPECT: the stored CRC that VERIFY compares against (R25). -/
  expect : Word
  /-- ACTUAL: the computed CRC captured by the last VERIFY (R26). -/
  actual : Word
  /-- STATUS.VDONE, bit 0 (R27). -/
  vdone : Bool
  /-- STATUS.MATCH, bit 1 (R27). -/
  matchBit : Bool
  /-- STATUS.MISMATCH, bit 2 (R27). -/
  mismatchBit : Bool
  /-- STATUS.ERR_CMD, bit 8 (R27, R181). -/
  errCmd : Bool
  /-- STATUS.ERR_ACC, bit 9 (R27, R182). -/
  errAcc : Bool
deriving DecidableEq, Repr

/-- The values reset leaves (R33, R200). -/
def Block.reset : Block where
  state := 0xFFFFFFFF#32
  count := 0#32
  expect := 0#32
  actual := 0#32
  vdone := false
  matchBit := false
  mismatchBit := false
  errCmd := false
  errAcc := false

/-- What reaches the block from outside, one at a time (R8, R45, R60). -/
inductive Input where
  /-- A transaction of the host, named by its word (R61). -/
  | txn (tw : TW)
  /-- The reset event: RST asserted between two transactions (R60, R200). -/
  | rst
  /-- Power is removed and restored (R196, R202; log entry 4). -/
  | powerCycle
deriving DecidableEq, Repr

/-- The two errors of 60_exceptions.md R181 and R182. -/
inductive ErrorKind where
  /-- ERR_CMD: a reserved command value (R181). -/
  | cmd
  /-- ERR_ACC: an illegal access (R182). -/
  | acc
deriving DecidableEq, Repr

/-- The machine: the block, what its port returned last, and what its surroundings send it next. -/
structure State where
  /-- The spec's whole state (R34). -/
  block : Block
  /-- RDATA of the last transaction: the value of a read, nothing after a write (R60, R100, R120; log entry 2). -/
  rdata : Option Word
  /-- The MODEL's own field: the inputs still to come, oldest first (R45; log entry 1). The block sees only the one being served. -/
  inputs : List Input
  /-- The MODEL's own field: power cycles so far, the argument of the free value that each one draws (log entry 4). -/
  powerCycles : Nat
deriving DecidableEq, Repr

/-- The machine right after a reset event (R33, R200), with no input waiting. -/
def State.reset : State where
  block := Block.reset
  rdata := none
  inputs := []
  powerCycles := 0

/-- Nothing stops the block: it "never traps, never stalls forever and never refuses a transaction" (R180). Misuse is a next state with a
sticky bit set (R189, U8 to U10), so there is no fault for anyone to raise. -/
inductive Fault
deriving DecidableEq, Repr

/-- Why a step could give no meaning. -/
inductive Refusal where
  /-- Raised by no arm of this model: every row of the opcode table has its meaning. Safe: it would stop where the block goes on. -/
  | notModelled (mnemonic : String)
deriving DecidableEq, Repr

end Sys2Proof.Machine
end

