-- ==== Sys2Proof/Machine/Flags.lean ====
section
/-!
DEFINITION. STATUS: the register's word and every computation of its five bits (10_state.md R27, R28, R32, 41_control_commands.md R101 to R103,
60_exceptions.md R181, R182).
-/
namespace Sys2Proof.Machine

/-- The word STATUS reads as: `(0 (22 bits), ERR_ACC, ERR_CMD, 0 (5 bits), MISMATCH, MATCH, VDONE)` (R27, R141). -/
def Block.status (b : Block) : Word :=
  BitVec.cast (n := 22 + 1 + 1 + 5 + 1 + 1 + 1) (by decide) (0#22 ++ BitVec.ofBool b.errAcc ++ BitVec.ofBool b.errCmd ++ 0#5
    ++ BitVec.ofBool b.mismatchBit ++ BitVec.ofBool b.matchBit ++ BitVec.ofBool b.vdone)

/-- INIT's part: the verify outcome is cleared (R101). -/
def Block.clearOutcome (b : Block) : Block :=
  { b with vdone := false, matchBit := false, mismatchBit := false }

/-- VERIFY's part: VDONE set, and exactly one of MATCH and MISMATCH, by comparing all 32 bits of the computed CRC with EXPECT (R102). -/
def Block.setOutcome (b : Block) (computed : Word) : Block :=
  { b with
    vdone := true
    matchBit := computed == b.expect
    mismatchBit := computed != b.expect }

/-- CLRERR's part: both sticky error bits cleared (R103). -/
def Block.clearErrors (b : Block) : Block :=
  { b with errCmd := false, errAcc := false }

/-- An error's code: the position of its bit in STATUS (R181, R182). -/
def ErrorKind.code : ErrorKind → Nat
  | .cmd => 8
  | .acc => 9

/-- The sticky bit of an error is set. It may already be 1 (R105, R147, R188). -/
def Block.setError (b : Block) : ErrorKind → Block
  | .cmd => { b with errCmd := true }
  | .acc => { b with errAcc := true }

/-- The invariants of STATUS: `MATCH & MISMATCH = 0` and `VDONE = MATCH | MISMATCH` (R28). -/
def Block.statusOk (b : Block) : Bool :=
  !(b.matchBit && b.mismatchBit) && (b.vdone == (b.matchBit || b.mismatchBit))

end Sys2Proof.Machine
end

