-- ==== Sys2Proof/Config.lean ====
section
/-!
DEFINITION. What the spec leaves open: one platform parameter and one free value. Neither has a body, so no proof can see a value of it.
Everything else about the block is fixed by the spec (00_scope.md R3, R9).
-/
namespace Sys2Proof

/-- `CRC_BASE`: where the block's window sits in the platform's address space, left OPEN by the spec (R9, R40, D25, U3; log entry 6). -/
opaque Config.crcBase : Nat

/-- The free value of a power cycle: the n-th power-up leaves "any 133-bit state tuple", one that breaks the STATUS invariant included
(70_reset_and_hazards.md R202, 60_exceptions.md R196, U1, U2; log entry 4). -/
opaque Config.powerUpTuple : Nat → BitVec 133

end Sys2Proof
end

