-- ==== Sys2Proof/Machine/Operands.lean ====
section
/-!
DEFINITION. Operand forms: the byte count of SIZE (30_encoding.md R62), the order in which a DIN write's bytes leave WDATA
(20_memory.md R43), big-endian and little-endian words (00_scope.md R11, 40_crc_function.md R94), and how a host address
reaches the window (R40).
-/
namespace Sys2Proof.Machine

/-- `k(SIZE)`: the byte count, none for the reserved code (R62). -/
def sizeBytes (size : SizeCode) : Option Nat :=
  if size = 0b00#2 then some 1
  else if size = 0b01#2 then some 2
  else if size = 0b10#2 then some 4
  else none

/-- The bytes a DIN write of `k` bytes absorbs, `WDATA[8k-1:8k-8]` first and `WDATA[7:0]` last (R43, R64). -/
def messageBytes : Nat → Word → List Byte
  | 0, _ => []
  | k + 1, wdata => wdata.extractLsb' (8 * k) 8 :: messageBytes k wdata

/-- `BE32(v)`: most significant byte first (R11). -/
def be32 (v : Word) : List Byte :=
  [v.extractLsb' 24 8, v.extractLsb' 16 8, v.extractLsb' 8 8, v.extractLsb' 0 8]

/-- `LE32(v)`: least significant byte first (R94). -/
def le32 (v : Word) : List Byte :=
  [v.extractLsb' 0 8, v.extractLsb' 8 8, v.extractLsb' 16 8, v.extractLsb' 24 8]

/-- `fromBE32(b0, b1, b2, b3)` (R11). -/
def fromBE32 (b0 b1 b2 b3 : Byte) : Word := 
  BitVec.cast (n := 8 + 8 + 8 + 8) (by decide) (b0 ++ b1 ++ b2 ++ b3)

/-- Two message bytes as the halfword a DIN.H write takes, the first byte the more significant (R43, R69). -/
def halfOfBytes (b0 b1 : Byte) : BitVec 16 := BitVec.cast (n := 8 + 8) (by decide) (b0 ++ b1)

/-- The offset a host address reaches when the window sits at `base`: `A - base` inside the 256-byte window, nothing outside it (R40). -/
def windowOffset (base address : Nat) : Option Offset :=
  if base ≤ address ∧ address < base + 256 then some (BitVec.ofNat 8 (address - base)) else none

/-- The transaction word that a host access at a platform address becomes at the block's port, with the window at `CRC_BASE` (R40, R60). -/
def hostAccess (we : Bool) (size : SizeCode) (address : Nat) (wdata : Word) : Option TW :=
  (windowOffset Config.crcBase address).map fun offset => TW.ofFields we size offset wdata

end Sys2Proof.Machine
end

