-- ==== Sys2Proof/Machine/Ops.lean ====
section
/-!
DEFINITION. The operations the meanings share: how a transaction completes, taking an error and clearing it, absorbing message bytes,
and the two events that are no transactions. Every effect of one transaction is applied at its end, computed from the state
before it (00_scope.md R12).
-/
namespace Sys2Proof.Machine

/-- The answer of one step of this machine. -/
abbrev Answer := Host.Outcome State Fault Refusal

/-- A write completes: the block holds what the rule says, and no RDATA is returned (R60, R100, R120). -/
def completeWrite (b : Block) (s : State) : Answer :=
  .next { s with block := b, rdata := none }

/-- A read completes: RDATA is returned and the block does not change (R50). -/
def completeRead (v : Word) (s : State) : Answer :=
  .next { s with rdata := some v }

/-- TAKING AN ERROR, `raise ERR_CMD` and `raise ERR_ACC` (R12, R180, R185): the sticky bit is set, none of the transaction's other effects happens,
a read returns 0, and the block goes on. Nothing is saved and control goes nowhere. -/
def raiseError (kind : ErrorKind) (isRead : Bool) (s : State) : Answer :=
  .next { s with
    block := s.block.setError kind
    rdata := if isRead then some 0#32 else none }

/-- The way back from an error: the sticky bits are cleared (R103, R188). -/
def clearErrors (s : State) : Answer :=
  completeWrite s.block.clearErrors s

/-- A new message starts (R101). -/
def startMessage (s : State) : Answer :=
  completeWrite { s.block.clearOutcome with state := initialValue, count := 0#32 } s

/-- The CRC of the bytes absorbed so far is captured and compared with EXPECT (R102). -/
def verifyMessage (s : State) : Answer :=
  completeWrite { s.block.setOutcome (finalize s.block.state) with actual := finalize s.block.state } s

/-- The block after a DIN write of `k` bytes: `din_write(k, WDATA)` of R120. -/
def Block.absorbWrite (b : Block) (k : Nat) (wdata : Word) : Block :=
  { b with
    state := absorb b.state (messageBytes k wdata)
    count := b.count + BitVec.ofNat 32 k }

/-- A DIN write of `k` bytes (R120). -/
def dinWrite (k : Nat) (wdata : Word) (s : State) : Answer :=
  completeWrite (s.block.absorbWrite k wdata) s

/-- The reset event: every piece of the block's state takes its reset value (R200). No transaction, so nothing on RDATA. -/
def takeReset (s : State) : Answer :=
  .next { s with block := Block.reset, rdata := none }

/-- The 133-bit tuple of R34, STATE in its most significant bits and ERR_ACC in bit 0. -/
def Block.toTuple (b : Block) : BitVec 133 :=
  BitVec.cast (n := 32 + 32 + 32 + 32 + 1 + 1 + 1 + 1 + 1) (by decide) (b.state ++ b.count ++ b.expect ++ b.actual ++ BitVec.ofBool b.vdone ++ BitVec.ofBool b.matchBit
    ++ BitVec.ofBool b.mismatchBit ++ BitVec.ofBool b.errCmd ++ BitVec.ofBool b.errAcc)

/-- The block a 133-bit tuple names (R34). -/
def Block.ofTuple (t : BitVec 133) : Block where
  state := t.extractLsb' 101 32
  count := t.extractLsb' 69 32
  expect := t.extractLsb' 37 32
  actual := t.extractLsb' 5 32
  vdone := t.getLsbD 4
  matchBit := t.getLsbD 3
  mismatchBit := t.getLsbD 2
  errCmd := t.getLsbD 1
  errAcc := t.getLsbD 0

/-- Power is removed and restored: the block holds any 133-bit tuple until a reset (R196, R202, U1, U2). The tuple is a free value. -/
def takePowerCycle (s : State) : Answer :=
  .next { s with
    block := Block.ofTuple (Config.powerUpTuple s.powerCycles)
    rdata := none
    powerCycles := s.powerCycles + 1 }

end Sys2Proof.Machine
end

