-- ==== Sys2Proof/Machine/Command.lean ====
section
/-!
DEFINITION. The control commands: 4-byte writes to CTRL (41_control_commands.md R100 to R106).
-/
namespace Sys2Proof.Machine

/-- CMD.NOP: "no register changes" (R106). -/
def execCmdNop (s : State) : Answer := completeWrite s.block s

/-- CMD.INIT (R101). -/
def execCmdInit (s : State) : Answer := startMessage s

/-- CMD.VERIFY (R102). A mismatch is an outcome, not an error (R183). -/
def execCmdVerify (s : State) : Answer := verifyMessage s

/-- CMD.CLRERR (R103). -/
def execCmdClrerr (s : State) : Answer := clearErrors s

/-- CMD.RSVD: `raise ERR_CMD(c)`. The value is not recorded (R105, R181). -/
def execCmdRsvd (_c : Word) (s : State) : Answer := raiseError .cmd false s

end Sys2Proof.Machine
end

