-- ==== Sys2Proof/Machine/DataInput.lean ====
section
/-!
DEFINITION. Message input: writes to DIN (42_data_input.md R120 to R126). Each meaning puts WDATA together again from the row's fields, and the
shared operation takes its low `k` bytes: the ignored bits take no part because R43 names none of them.
-/
namespace Sys2Proof.Machine

/-- DIN.B: absorb `WDATA[7:0]` (R121). -/
def execDinB (x : BitVec 24) (b : BitVec 8) (s : State) : Answer := dinWrite 1 (wdataOfByte x b) s

/-- DIN.H: absorb `WDATA[15:8]`, then `WDATA[7:0]` (R122). -/
def execDinH (x : BitVec 16) (h : BitVec 16) (s : State) : Answer := dinWrite 2 (wdataOfHalf x h) s

/-- DIN.W: absorb the four bytes of WDATA, most significant first (R123). -/
def execDinW (w : Word) (s : State) : Answer := dinWrite 4 w s

end Sys2Proof.Machine
end

