-- ==== Sys2Proof/Machine/RegisterAccess.lean ====
section
/-!
DEFINITION. The EXPECT write, the register reads, and every transaction that names no register operation
(43_register_access.md R140 to R147).
-/
namespace Sys2Proof.Machine

/-- WR.EXPECT (R140). -/
def execWrExpect (v : Word) (s : State) : Answer := completeWrite { s.block with expect := v } s

/-- RD.STATUS (R141). -/
def execRdStatus (_x : Word) (s : State) : Answer := completeRead s.block.status s

/-- RD.EXPECT (R142). -/
def execRdExpect (_x : Word) (s : State) : Answer := completeRead s.block.expect s

/-- RD.RESULT: the CRC of the bytes absorbed so far, derived from STATE (R31, R143). -/
def execRdResult (_x : Word) (s : State) : Answer := completeRead (finalize s.block.state) s

/-- RD.STATE: the raw register, before the final XOR (R144). -/
def execRdState (_x : Word) (s : State) : Answer := completeRead s.block.state s

/-- RD.COUNT (R145). -/
def execRdCount (_x : Word) (s : State) : Answer := completeRead s.block.count s

/-- RD.ACTUAL (R146). -/
def execRdActual (_x : Word) (s : State) : Answer := completeRead s.block.actual s

/-- ACC.ILLEGAL: `raise ERR_ACC(TW)`, and RDATA is 0 when WE = 0 (R147, R182). -/
def execAccIllegal (a : TW) (s : State) : Answer := raiseError .acc (!a.we) s

end Sys2Proof.Machine
end

