-- ==== Sys2Proof/Machine/Dispatch.lean ====
section
/-!
DEFINITION. The meaning of each row of the opcode table, one arm a constructor.
-/
namespace Sys2Proof.Machine

def exec (i : Instr) (s : State) : Host.Outcome State Fault Refusal :=
  match i with
  | .cmdNop => Sys2Proof.Machine.execCmdNop s
  | .cmdInit => Sys2Proof.Machine.execCmdInit s
  | .cmdVerify => Sys2Proof.Machine.execCmdVerify s
  | .cmdClrerr => Sys2Proof.Machine.execCmdClrerr s
  | .cmdRsvd c => Sys2Proof.Machine.execCmdRsvd c s
  | .dinB x b => Sys2Proof.Machine.execDinB x b s
  | .dinH x h => Sys2Proof.Machine.execDinH x h s
  | .dinW w => Sys2Proof.Machine.execDinW w s
  | .wrExpect v => Sys2Proof.Machine.execWrExpect v s
  | .rdStatus x => Sys2Proof.Machine.execRdStatus x s
  | .rdExpect x => Sys2Proof.Machine.execRdExpect x s
  | .rdResult x => Sys2Proof.Machine.execRdResult x s
  | .rdState x => Sys2Proof.Machine.execRdState x s
  | .rdCount x => Sys2Proof.Machine.execRdCount x s
  | .rdActual x => Sys2Proof.Machine.execRdActual x s
  | .accIllegal a => Sys2Proof.Machine.execAccIllegal a s

end Sys2Proof.Machine
end

