-- ==== Sys2Proof/Machine/Step.lean ====
section
/-!
DEFINITION. One step: the block serves the oldest input, whole (20_memory.md R45, R49). A transaction is decoded and runs; a reset event and
a power cycle fall between transactions; with no input the block does not act (00_scope.md R8; log entry 3).
-/
namespace Sys2Proof.Machine

/-- One step of the machine. -/
def step (s : State) : Host.Outcome State Fault Refusal :=
  match s.inputs with
  | [] => .next s
  | .txn tw :: rest => exec (decode tw) { s with inputs := rest }
  | .rst :: rest => takeReset { s with inputs := rest }
  | .powerCycle :: rest => takePowerCycle { s with inputs := rest }

/-- The state with `w` as the very next transaction on the port (log entry 10). A number with a bit above bit 42 is no transaction
word, so nothing is placed for it. -/
def State.withFetchWord (s : State) (nbits w : Nat) : State :=
  if w % 2 ^ nbits < 2 ^ 43 then
    { s with inputs := .txn (BitVec.ofNat 43 (w % 2 ^ nbits)) :: s.inputs }
  else s

end Sys2Proof.Machine
end

