-- ==== Sys2Proof/Machine/Asm.lean ====
section
/-!
DEFINITION. The spec's assembler notation: lines, pseudo-instructions, the words they stand for, and reading a line of text
(30_encoding.md R68 to R70). Notation for hosts: no step reads it.
-/
namespace Sys2Proof.Machine

/-- One line of R68, or one pseudo-instruction of R69. -/
inductive AsmLine where
  /-- `RD <reg>` -/
  | rd (r : Reg)
  /-- `WR <reg>, <imm32>` -/
  | wr (r : Reg) (v : Word)
  /-- `WR.B DIN, <imm8>` -/
  | wrB (b : Byte)
  /-- `WR.H DIN, <imm16>` -/
  | wrH (h : BitVec 16)
  /-- `WR.W DIN, <imm32>` -/
  | wrW (w : Word)
  /-- `RD.<sz> @<off>` -/
  | rawRd (size : SizeCode) (offset : Offset)
  /-- `WR.<sz> @<off>, <imm32>` -/
  | rawWr (size : SizeCode) (offset : Offset) (v : Word)
  | nop
  | init
  | verify
  | clrerr
  | ldexp (v : Word)
  | absorb (bytes : List Byte)
  | crcgen (bytes : List Byte)
  | crcchk (bytes : List Byte) (v : Word)
deriving DecidableEq, Repr

/-- `<reg>` of an RD line (R68). -/
def Reg.readable : Reg → Bool
  | .ctrl => false
  | .status => true
  | .din => false
  | .expect => true
  | .result => true
  | .state => true
  | .count => true
  | .actual => true

/-- `<reg>` of a WR line as R68 lists it. The reader of text takes the other registers too (log entry 18). -/
def Reg.writable : Reg → Bool
  | .ctrl => true
  | .status => false
  | .din => true
  | .expect => true
  | .result => false
  | .state => false
  | .count => false
  | .actual => false

/-- The line is one R68 or R69 lists. -/
def AsmLine.wf : AsmLine → Bool
  | .rd r => Reg.readable r
  | .wr r _ => Reg.writable r
  | .wrB _ => true
  | .wrH _ => true
  | .wrW _ => true
  | .rawRd _ _ => true
  | .rawWr _ _ _ => true
  | .nop => true
  | .init => true
  | .verify => true
  | .clrerr => true
  | .ldexp _ => true
  | .absorb _ => true
  | .crcgen _ => true
  | .crcchk _ _ => true

/-- `RD <reg>`: SIZE 0b10, WDATA 0 (R68, R70). -/
def readWord (r : Reg) : TW := TW.ofFields false 0b10#2 r.offset 0#32

/-- `WR <reg>, <imm32>`: SIZE 0b10 (R68). -/
def writeWord (r : Reg) (v : Word) : TW := TW.ofFields true 0b10#2 r.offset v

/-- `WR.B DIN, b`. -/
def dinByteWord (b : Byte) : TW := TW.ofFields true 0b00#2 Reg.din.offset (b.setWidth 32)

/-- `WR.H DIN, h`. -/
def dinHalfWord (h : BitVec 16) : TW := TW.ofFields true 0b01#2 Reg.din.offset (h.setWidth 32)

/-- The expansion of `ABSORB`: words of four while four are left, then a halfword if two are, then a byte if one is (R69). -/
def absorbWords : List Byte → List TW
  | [] => []
  | [b0] => [dinByteWord b0]
  | [b0, b1] => [dinHalfWord (halfOfBytes b0 b1)]
  | [b0, b1, b2] => [dinHalfWord (halfOfBytes b0 b1), dinByteWord b2]
  | b0 :: b1 :: b2 :: b3 :: rest => writeWord .din (fromBE32 b0 b1 b2 b3) :: absorbWords rest

/-- The transaction words of a line (R68, R69, R70). -/
def AsmLine.words : AsmLine → List TW
  | .rd r => [readWord r]
  | .wr r v => [writeWord r v]
  | .wrB b => [dinByteWord b]
  | .wrH h => [dinHalfWord h]
  | .wrW w => [writeWord .din w]
  | .rawRd size offset => [TW.ofFields false size offset 0#32]
  | .rawWr size offset v => [TW.ofFields true size offset v]
  | .nop => [writeWord .ctrl 0#32]
  | .init => [writeWord .ctrl 1#32]
  | .verify => [writeWord .ctrl 2#32]
  | .clrerr => [writeWord .ctrl 3#32]
  | .ldexp v => [writeWord .expect v]
  | .absorb bytes => absorbWords bytes
  | .crcgen bytes => writeWord .ctrl 1#32 :: absorbWords bytes ++ [readWord .result]
  | .crcchk bytes v =>
    writeWord .ctrl 1#32 :: absorbWords bytes
      ++ [writeWord .expect v, writeWord .ctrl 2#32, readWord .status, readWord .actual]

/-- The words of a sequence of lines, in order. -/
def assemble (lines : List AsmLine) : List TW := lines.flatMap AsmLine.words

/-! ## Reading a line of text (R68; log entry 12) -/

/-- The tokens of a line. -/
inductive AsmToken where
  | word (cs : List Char)
  | comma
  | text (cs : List Char)
deriving DecidableEq, Repr

/-- A finished word, if there is one, before the tokens that follow it. `acc` holds its characters in reverse. -/
def flushWord (acc : List Char) (ts : List AsmToken) : List AsmToken :=
  if acc = [] then ts else .word acc.reverse :: ts

/-- The tokens of a line. The first argument says that the reader stands inside a quoted text, which a comment sign does not end. The quotation mark is
character 34, the tab character 9. -/
def lexLine : Bool → List Char → List Char → Option (List AsmToken)
  | true, _, [] => none
  | false, acc, [] => some (flushWord acc [])
  | true, acc, c :: cs =>
    if c.toNat = 34 then (lexLine false [] cs).map (AsmToken.text acc.reverse :: ·)
    else lexLine true (c :: acc) cs
  | false, acc, c :: cs =>
    if c = ';' then some (flushWord acc [])
    else if c.toNat = 34 then (lexLine true [] cs).map (flushWord acc)
    else if c = ',' then (lexLine false [] cs).map fun ts => flushWord acc (.comma :: ts)
    else if c = ' ' ∨ c.toNat = 9 then (lexLine false [] cs).map (flushWord acc)
    else lexLine false (c :: acc) cs

/-- The value of a digit, hexadecimal letters in either case. -/
def digitValue (c : Char) : Option Nat :=
  if '0' ≤ c ∧ c ≤ '9' then some (c.toNat - 48)
  else if 'A' ≤ c ∧ c ≤ 'F' then some (c.toNat - 55)
  else if 'a' ≤ c ∧ c ≤ 'f' then some (c.toNat - 87)
  else none

/-- The digits read in the given base, after the value already read. -/
def readDigits (base : Nat) : Nat → List Char → Option Nat
  | n, [] => some n
  | n, c :: cs =>
    match digitValue c with
    | some d => if d < base then readDigits base (base * n + d) cs else none
    | none => none

/-- An unsigned number, decimal or `0x` hexadecimal (R68). -/
def readNumber : List Char → Option Nat
  | [] => none
  | '0' :: 'x' :: [] => none
  | '0' :: 'x' :: c :: cs => readDigits 16 0 (c :: cs)
  | c :: cs => readDigits 10 0 (c :: cs)

/-- A number that fits the width named (R68). -/
def readImm (width : Nat) (cs : List Char) : Option (BitVec width) :=
  match readNumber cs with
  | some n => if n < 2 ^ width then some (BitVec.ofNat width n) else none
  | none => none

/-- A register's name (R22, R68). -/
def readReg (cs : List Char) : Option Reg :=
  if cs = ['C', 'T', 'R', 'L'] then some .ctrl
  else if cs = ['S', 'T', 'A', 'T', 'U', 'S'] then some .status
  else if cs = ['D', 'I', 'N'] then some .din
  else if cs = ['E', 'X', 'P', 'E', 'C', 'T'] then some .expect
  else if cs = ['R', 'E', 'S', 'U', 'L', 'T'] then some .result
  else if cs = ['S', 'T', 'A', 'T', 'E'] then some .state
  else if cs = ['C', 'O', 'U', 'N', 'T'] then some .count
  else if cs = ['A', 'C', 'T', 'U', 'A', 'L'] then some .actual
  else none

/-- `<sz>` of a raw form: B, H, W or X (R68). -/
def readSize : List Char → Option SizeCode
  | ['B'] => some 0b00#2
  | ['H'] => some 0b01#2
  | ['W'] => some 0b10#2
  | ['X'] => some 0b11#2
  | _ => none

/-- The operands between commas. -/
def readOperands : List AsmToken → Option (List AsmToken)
  | [] => some []
  | [.comma] => none
  | [t] => some [t]
  | .comma :: _ => none
  | t :: .comma :: u :: rest => (readOperands (u :: rest)).map (t :: ·)
  | _ :: _ => none

/-- One message byte: a number of 8 bits. -/
def readByte : AsmToken → Option Byte
  | .word cs => readImm 8 cs
  | .comma => none
  | .text _ => none

/-- The ASCII code of a character. -/
def asciiCode (c : Char) : Option Byte :=
  if c.toNat < 128 then some (BitVec.ofNat 8 c.toNat) else none

/-- `<b0>, ..., <bn-1>`, or one quoted ASCII text (R69). DESIGN CHOICE (log entry 12): no operand at all, or `""`, spells no byte. -/
def readBytes : List AsmToken → Option (List Byte)
  | [.text cs] => cs.mapM asciiCode
  | ts => ts.mapM readByte

/-- `RD <reg>` and `RD.<sz> @<off>`, `suffix` being what follows `RD`. -/
def readRd (suffix : List Char) : List AsmToken → Option AsmLine
  | [.word ('@' :: cs)] =>
    match suffix with
    | '.' :: sz => (readSize sz).bind fun size => (readImm 8 cs).map (AsmLine.rawRd size)
    | _ => none
  | [.word cs] =>
    match suffix, readReg cs with
    | [], some r => if Reg.readable r then some (.rd r) else none
    | _, _ => none
  | _ => none

/-- `WR <reg>, <imm32>`, `WR.B DIN, …`, `WR.H DIN, …`, `WR.W DIN, …` and `WR.<sz> @<off>, <imm32>`. DESIGN CHOICE (log entry 18): any register may
follow `WR`, as `WR STATE, 5` in the spec's program P3 shows, though R68 lists CTRL, DIN and EXPECT alone; the word of such a line is an illegal access. -/
def readWr (suffix : List Char) : List AsmToken → Option AsmLine
  | [.word ('@' :: cs), .word imm] =>
    match suffix with
    | '.' :: sz =>
      (readSize sz).bind fun size =>
        (readImm 8 cs).bind fun offset => (readImm 32 imm).map (AsmLine.rawWr size offset)
    | _ => none
  | [.word cs, .word imm] =>
    match suffix, readReg cs with
    | [], some r => (readImm 32 imm).map (AsmLine.wr r)
    | ['.', 'B'], some .din => (readImm 8 imm).map AsmLine.wrB
    | ['.', 'H'], some .din => (readImm 16 imm).map AsmLine.wrH
    | ['.', 'W'], some .din => (readImm 32 imm).map AsmLine.wrW
    | _, _ => none
  | _ => none

/-- `LDEXP <imm32>` (R69). -/
def readLdexp : List AsmToken → Option AsmLine
  | [.word imm] => (readImm 32 imm).map AsmLine.ldexp
  | _ => none

/-- `CRCCHK <bytes>, <imm32>`: the last operand is the expected CRC (R69). DESIGN CHOICE (log entry 12): with no byte before it, `CRCCHK <imm32>`, the message
is empty. -/
def readCrcchk (ops : List AsmToken) : Option AsmLine :=
  match ops.getLast? with
  | some (.word imm) =>
    (readBytes ops.dropLast).bind fun bytes => (readImm 32 imm).map (AsmLine.crcchk bytes)
  | _ => none

/-- A line without operands. -/
def readBare (line : AsmLine) (ops : List AsmToken) : Option AsmLine :=
  if ops = [] then some line else none

/-- A mnemonic with its operands. -/
def readInstruction (m : List Char) (ops : List AsmToken) : Option AsmLine :=
  match m with
  | 'R' :: 'D' :: suffix => readRd suffix ops
  | 'W' :: 'R' :: suffix => readWr suffix ops
  | ['N', 'O', 'P'] => readBare .nop ops
  | ['I', 'N', 'I', 'T'] => readBare .init ops
  | ['V', 'E', 'R', 'I', 'F', 'Y'] => readBare .verify ops
  | ['C', 'L', 'R', 'E', 'R', 'R'] => readBare .clrerr ops
  | ['L', 'D', 'E', 'X', 'P'] => readLdexp ops
  | ['A', 'B', 'S', 'O', 'R', 'B'] => (readBytes ops).map AsmLine.absorb
  | ['C', 'R', 'C', 'G', 'E', 'N'] => (readBytes ops).map AsmLine.crcgen
  | ['C', 'R', 'C', 'C', 'H', 'K'] => readCrcchk ops
  | _ => none

/-- The tokens of one line as the lines they spell: none or one. -/
def readTokens : List AsmToken → Option (List AsmLine)
  | [] => some []
  | .word m :: rest => (readOperands rest).bind fun ops => (readInstruction m ops).map fun line => [line]
  | _ :: _ => none

/-- A line of text, without its end-of-line character: the lines it spells (none for a blank or comment line), or `none` where the text is not
of R68's syntax. -/
def readLine (cs : List Char) : Option (List AsmLine) :=
  (lexLine false [] cs).bind readTokens

/-- A hexadecimal digit, as the spec writes it. -/
def hexDigit (n : BitVec 4) : Char :=
  if n.toNat < 10 then Char.ofNat (48 + n.toNat) else Char.ofNat (55 + n.toNat)

/-- The hexadecimal digits of the low `4 k` bits of a word, most significant first. -/
def hexDigits (tw : TW) : Nat → List Char
  | 0 => []
  | k + 1 => hexDigit (tw.extractLsb' (4 * k) 4) :: hexDigits tw k

/-- A word as the spec writes it: `TW=0x` and 11 hexadecimal digits (R68). -/
def showWord (tw : TW) : List Char := ['T', 'W', '=', '0', 'x'] ++ hexDigits tw 11

end Sys2Proof.Machine
end

