-- ==== Sys2Proof/Machine/Chunk.lean ====
section
/-!
DEFINITION. The chunk procedures of 44_chunk_procedures.md: which bytes a chunk's CRC covers, how a record is laid out, and the transactions a host issues
to generate and to verify it. They add no behaviour to the block.
-/
namespace Sys2Proof.Machine

/-- The message of a chunk: `type ++ data` (R160). -/
def chunkMessage (type data : List Byte) : List Byte := type ++ data

/-- Generation: INIT, the type bytes, the data bytes, RD RESULT (R161). -/
def generationLines (type data : List Byte) : List AsmLine :=
  [.init, .absorb type, .absorb data, .rd .result]

/-- The record the host emits: `BE32(L) ++ type ++ data ++ BE32(crc)` (R41, R161). -/
def chunkRecord (type data : List Byte) (crc : Word) : List Byte :=
  be32 (BitVec.ofNat 32 data.length) ++ type ++ data ++ be32 crc

/-- The four record bytes from position `i` as a big-endian u32 (R41, R163). DESIGN CHOICE (log entry 16): a byte beyond the record's end is 0. -/
def recordWord (r : List Byte) (i : Nat) : Word :=
  fromBE32 (r.getD i 0#8) (r.getD (i + 1) 0#8) (r.getD (i + 2) 0#8) (r.getD (i + 3) 0#8)

/-- `L`: the length field (R163). -/
def recordLength (r : List Byte) : Nat := (recordWord r 0).toNat

/-- `r_4 .. r_(7+L)`: the type and data bytes (R163). DESIGN CHOICE (log entry 16): of a record shorter than its length field says, which no host verifies
(R165), it is the bytes there are. -/
def recordMessage (r : List Byte) : List Byte := (r.drop 4).take (4 + recordLength r)

/-- The stored CRC: the record's last four bytes, big-endian (R41, R163). -/
def recordStored (r : List Byte) : Word := recordWord r (8 + recordLength r)

/-- The host has framed the record: it is exactly as long as its length field says (R163, R165). -/
def recordFramed (r : List Byte) : Bool := r.length == 12 + recordLength r

/-- Verification of a framed record (R163). -/
def verificationLines (r : List Byte) : List AsmLine :=
  [.init, .absorb (recordMessage r), .ldexp (recordStored r), .verify, .rd .status, .rd .actual]

/-- The source's failure `CrcMismatch(expected, actual)`, read from the block after a VERIFY (R104, R164). -/
def crcMismatch (b : Block) : Option (Word × Word) :=
  if b.mismatchBit then some (b.expect, b.actual) else none

/-- The PNG signature: it belongs to no chunk and is never absorbed (R160, R171). -/
def pngSignature : List Byte :=
  [0x89#8, 0x50#8, 0x4E#8, 0x47#8, 0x0D#8, 0x0A#8, 0x1A#8, 0x0A#8]

/-- A whole PNG stream: `signature ++ record_1 ++ ... ++ record_K` (R171). -/
def pngStream (records : List (List Byte)) : List Byte := pngSignature ++ records.flatten

/-- The transactions that verify a stream's records one after the other, each with its own INIT (R171). A host that stops at the first MISMATCH issues
the part of them up to that record. -/
def streamVerificationLines (records : List (List Byte)) : List AsmLine :=
  records.flatMap verificationLines

end Sys2Proof.Machine
end

