-- ==== Sys2Proof/Machine/Run.lean ====
section
/-!
DEFINITION. Driving the machine from outside: the inputs a host offers, several steps in a row, and what the host sees on RDATA
(20_memory.md R45, R53).
-/
namespace Sys2Proof.Machine

/-- The state with the given inputs about to arrive, before the ones already waiting (R45). -/
def State.offer (s : State) (ins : List Input) : State := { s with inputs := ins ++ s.inputs }

/-- A host's transactions as inputs, in the order it issues them (R54). -/
def transactions (words : List TW) : List Input := words.map Input.txn

/-- `n` steps, stopping where a step stops. -/
def run : Nat → State → Host.Outcome State Fault Refusal
  | 0, s => .next s
  | n + 1, s =>
    match step s with
    | .next t => run n t
    | .fault r => .fault r
    | .refused r => .refused r

/-- What the host sees on RDATA after each of the next `n` steps. -/
def observe : Nat → State → List (Option Word)
  | 0, _ => []
  | n + 1, s =>
    match step s with
    | .next t => t.rdata :: observe n t
    | .fault _ => []
    | .refused _ => []

/-- The machine after the given inputs have arrived and been served (R45). -/
def serve (s : State) (ins : List Input) : Host.Outcome State Fault Refusal :=
  run ins.length (s.offer ins)

/-- RDATA after each of the given inputs (R53). -/
def answers (s : State) (ins : List Input) : List (Option Word) :=
  observe ins.length (s.offer ins)

end Sys2Proof.Machine
end

