-- ==== Sys2Proof/WellFormed.lean ====
section
/-!
DEFINITION. Which instructions name a transaction: a reserved command carries no value that names a command (R105), and an illegal access
carries no legal word (R147). Every other operand field takes every value of its width (R64, R67).
-/
namespace Sys2Proof

/-- The check a term of `Instr` passes exactly when some transaction word decodes to it. -/
def Instr.wf : Instr → Bool
  | .cmdNop => true
  | .cmdInit => true
  | .cmdVerify => true
  | .cmdClrerr => true
  | .cmdRsvd c => c != 0#32 && c != 1#32 && c != 2#32 && c != 3#32
  | .dinB _ _ => true
  | .dinH _ _ => true
  | .dinW _ => true
  | .wrExpect _ => true
  | .rdStatus _ => true
  | .rdExpect _ => true
  | .rdResult _ => true
  | .rdState _ => true
  | .rdCount _ => true
  | .rdActual _ => true
  | .accIllegal a => !legal a

end Sys2Proof
end

