-- ==== Sys2Proof/Safety.lean ====
section
/-!
DEFINITION. What a safe run is, in the terms the statements use: no error bit set, no misuse, and the invariant of STATUS.
-/
namespace Sys2Proof.Machine

/-- No error bit is set (R189). -/
def Block.noError (b : Block) : Bool := !b.errCmd && !b.errAcc

/-- The transaction word is a misuse of the port: a reserved command or an illegal access (R105, R147, R181, R182). -/
def isMisuse (tw : TW) : Bool :=
  match decode tw with
  | .cmdNop => false
  | .cmdInit => false
  | .cmdVerify => false
  | .cmdClrerr => false
  | .cmdRsvd _ => true
  | .dinB _ _ => false
  | .dinH _ _ => false
  | .dinW _ => false
  | .wrExpect _ => false
  | .rdStatus _ => false
  | .rdExpect _ => false
  | .rdResult _ => false
  | .rdState _ => false
  | .rdCount _ => false
  | .rdActual _ => false
  | .accIllegal _ => true

/-- No power cycle is among the inputs to come: the launch premise under which the block's rules hold from a reset on (R202, R204). -/
def State.powerStays (s : State) : Bool := !s.inputs.contains .powerCycle

/-- The invariant every step keeps: the STATUS invariants of R28, while power stays (R202). -/
def State.Inv (s : State) : Prop := s.block.statusOk = true ∧ s.powerStays = true

end Sys2Proof.Machine
end

