-- ==== Sys2Proof/Certificates/Slice0/Obligations.lean ====
section
/-!
DEFINITION. The statements for the provers. Each docstring names the rule or the section of spec/ it formalises. `exec i s = .next t` with `t` written
out says what changes and that everything else is as before. Where a rule says nothing of RDATA (an EXPECT write, an illegal write), the statement says nothing of it
either; `rdata := none` stands where the spec says that none is returned (R100, R120).
-/

open Sys2Proof Sys2Proof.Machine

/-! ## Encoding (30_encoding.md) -/

/-- R61, R65: decoding the word of a well-formed instruction gives the instruction back, with every operand at every value it can take. -/
def Obligations.DecodeInvertsEncode : Prop :=
  ∀ i : Instr, i.wf = true → decode (encode i) = i

/-- R65 "The decoder is total", R148: every transaction word is the word of the one well-formed instruction it decodes to. -/
def Obligations.EncodeInvertsDecode : Prop :=
  ∀ tw : TW, (decode tw).wf = true ∧ encode (decode tw) = tw

/-- R65: the decoder picks the first row of the opcode table, in priority order, that the word matches. The table is spec/opcode_table.json. -/
def Obligations.DecodeSelectsFirstMatchingRow : Prop :=
  ∀ tw : TW, firstRow tw = some (decode tw).priority

/-- R48: a transaction whose direction, register and size are not in the table of accepted combinations raises ERR_ACC: the bit is set, nothing else
changes, and a read returns 0. One that is in the table is not an illegal access. -/
def Obligations.UnacceptedCombinationsRaiseErrAcc : Prop :=
  ∀ (tw : TW) (s : State),
    (accepted tw = false →
      ∃ t, exec (decode tw) s = .next t ∧ t = { s with block := { s.block with errAcc := true }, rdata := t.rdata } ∧
        (TW.we tw = false → t.rdata = some 0#32)) ∧
    (accepted tw = true → ∀ a, decode tw ≠ .accIllegal a)

/-- R148 (marked derived in the spec): `legal(TW)` of R147 is true exactly for the words of rows 1 to 15, and it agrees with the table of R48. -/
def Obligations.LegalWordsAreRows1To15 : Prop :=
  ∀ tw : TW, (legal tw = true ↔ (decode tw).priority ≤ 15) ∧ legal tw = accepted tw

/-- R70 (marked derived in the spec): the words the spec writes out decode to the instructions they stand for. -/
def Obligations.WrittenWordsDecode : Prop :=
  decode 0x60000000000#43 = .cmdNop ∧
  decode 0x60000000001#43 = .cmdInit ∧
  decode 0x60000000002#43 = .cmdVerify ∧
  decode 0x60000000003#43 = .cmdClrerr ∧
  decode 0x60000000101#43 = .cmdRsvd 0x00000101#32 ∧
  decode 0x408FFFFFF49#43 = .dinB 0xFFFFFF#24 0x49#8 ∧
  decode 0x50800004945#43 = .dinH 0x0000#16 0x4945#16 ∧
  decode 0x60849454E44#43 = .dinW 0x49454E44#32 ∧
  decode 0x60CAE426082#43 = .wrExpect 0xAE426082#32 ∧
  decode 0x20400000000#43 = .rdStatus 0#32 ∧
  decode 0x20C00000000#43 = .rdExpect 0#32 ∧
  decode 0x21000000000#43 = .rdResult 0#32 ∧
  decode 0x21400000000#43 = .rdState 0#32 ∧
  decode 0x21800000000#43 = .rdCount 0#32 ∧
  decode 0x21C00000000#43 = .rdActual 0#32 ∧
  decode 0x20500000000#43 = .accIllegal 0x20500000000#43

/-- R46, R64, R67: a transaction of `k` bytes uses `WDATA[8k-1:0]` alone, and a read no bit of WDATA: two words of the same direction, size and offset
that agree on the bits used do the same in every state. Where SIZE is reserved, no bit is used. -/
def Obligations.IgnoredWdataBitsHaveNoEffect : Prop :=
  ∀ (v w : TW) (s : State),
    TW.we v = TW.we w → TW.size v = TW.size w → TW.addr v = TW.addr w →
    (TW.we v = true → ∀ k, sizeBytes (TW.size v) = some k →
      (TW.wdata v).extractLsb' 0 (8 * k) = (TW.wdata w).extractLsb' 0 (8 * k)) →
    exec (decode v) s = exec (decode w) s

/-- R68: "the raw forms exist so that every illegal word of rule R67 can be spelled": a raw line's word of the same direction, size and
offset does what the illegal word does. -/
def Obligations.RawLinesSpellEveryIllegalAccess : Prop :=
  ∀ a : TW, legal a = false →
    ∃ line : AsmLine, line.wf = true ∧ ∃ w, line.words = [w] ∧ legal w = false ∧
      TW.we w = TW.we a ∧ TW.size w = TW.size a ∧ TW.addr w = TW.addr a ∧
      ∀ s, exec (decode w) s = exec (decode a) s

/-- R68, R69, and R70 (marked derived in the spec): the words of the assembler's lines and pseudo-instructions. ABSORB takes words of four bytes while four are
left, then a halfword if two are, then a byte if one is. -/
def Obligations.PseudoInstructionsExpandToTheirWords : Prop :=
  AsmLine.words .nop = [0x60000000000#43] ∧ AsmLine.words .init = [0x60000000001#43] ∧
  AsmLine.words .verify = [0x60000000002#43] ∧ AsmLine.words .clrerr = [0x60000000003#43] ∧
  (∀ v : Word, AsmLine.words (.wr .ctrl v) = [0x60000000000#43 ||| v.setWidth 43]) ∧
  (∀ (size : SizeCode) (offset : Offset), AsmLine.words (.rawRd size offset) = [TW.ofFields false size offset 0#32]) ∧
  (∀ (size : SizeCode) (offset : Offset) (v : Word), AsmLine.words (.rawWr size offset v) = [TW.ofFields true size offset v]) ∧
  AsmLine.words (.absorb []) = [] ∧
  (∀ b0 : Byte, AsmLine.words (.absorb [b0]) = AsmLine.words (.wrB b0)) ∧
  (∀ b0 b1 : Byte, AsmLine.words (.absorb [b0, b1]) = AsmLine.words (.wrH (b0 ++ b1))) ∧
  (∀ b0 b1 b2 : Byte, AsmLine.words (.absorb [b0, b1, b2]) = AsmLine.words (.wrH (b0 ++ b1)) ++ AsmLine.words (.wrB b2)) ∧
  (∀ (b0 b1 b2 b3 : Byte) (rest : List Byte), AsmLine.words (.absorb (b0 :: b1 :: b2 :: b3 :: rest)) =
    AsmLine.words (.wrW (b0 ++ b1 ++ b2 ++ b3)) ++ AsmLine.words (.absorb rest)) ∧
  (∀ v : Word, AsmLine.words (.ldexp v) = [0x60C00000000#43 ||| v.setWidth 43] ∧ AsmLine.words (.ldexp v) = AsmLine.words (.wr .expect v) ∧
    AsmLine.words (.wrW v) = [0x60800000000#43 ||| v.setWidth 43] ∧ AsmLine.words (.wrW v) = AsmLine.words (.wr .din v)) ∧
  (∀ h : BitVec 16, AsmLine.words (.wrH h) = [0x50800000000#43 ||| h.setWidth 43]) ∧
  (∀ b : Byte, AsmLine.words (.wrB b) = [0x40800000000#43 ||| b.setWidth 43]) ∧
  assemble [.rd .status, .rd .expect, .rd .result, .rd .state, .rd .count, .rd .actual] =
    [0x20400000000#43, 0x20C00000000#43, 0x21000000000#43, 0x21400000000#43, 0x21800000000#43, 0x21C00000000#43] ∧
  (∀ m : List Byte, AsmLine.words (.crcgen m) = assemble [.init, .absorb m, .rd .result]) ∧
  (∀ (m : List Byte) (v : Word), AsmLine.words (.crcchk m v) = assemble [.init, .absorb m, .ldexp v, .verify, .rd .status, .rd .actual])

/-! ## The step -/

/-- R45, and log entries 1, 3 and 10: a step serves the oldest input whole. A transaction runs the instruction its word decodes to, with the input
taken off the list; a well-formed instruction is run by its own word; a reset event and a power cycle are served the same way; and with no input
nothing happens, the model's reading of R8. -/
def Obligations.StepServesTheOldestInput : Prop :=
  (∀ (s : State) (tw : TW) (rest : List Input), s.inputs = .txn tw :: rest →
    step s = exec (decode tw) { s with inputs := rest }) ∧
  (∀ (s : State) (i : Instr) (rest : List Input), i.wf = true → s.inputs = .txn (encode i) :: rest →
    step s = exec i { s with inputs := rest }) ∧
  (∀ (s : State) (tw : TW), step (s.withFetchWord 48 tw.toNat) = exec (decode tw) s) ∧
  (∀ (s : State) (rest : List Input), s.inputs = .rst :: rest → step s = takeReset { s with inputs := rest }) ∧
  (∀ (s : State) (rest : List Input), s.inputs = .powerCycle :: rest →
    step s = takePowerCycle { s with inputs := rest }) ∧
  (∀ s : State, s.inputs = [] → step s = .next s)

/-- R45: inputs are served one at a time in order, a reset included: what comes later is served in the state that what came earlier left, and changes nothing
in the answers already given. -/
def Obligations.EarlierInputsAreServedFirst : Prop :=
  ∀ (s : State) (a b : List Input), ∃ t, serve s a = .next t ∧ t.inputs = s.inputs ∧
    serve s (a ++ b) = serve t b ∧ answers s (a ++ b) = answers s a ++ answers t b

/-- R180: every transaction completes, in every state. One that is misused sets one sticky bit, has none of its other effects, and returns 0 if it
was a read. -/
def Obligations.EveryTransactionCompletes : Prop :=
  ∀ (s : State) (tw : TW) (rest : List Input), s.inputs = .txn tw :: rest →
    ∃ t, step s = .next t ∧ t.inputs = rest ∧ t.powerCycles = s.powerCycles ∧
      (isMisuse tw = true →
        (t.block = { s.block with errCmd := true } ∨ t.block = { s.block with errAcc := true }) ∧
        (TW.we tw = false → t.rdata = some 0#32))

/-- R8, R180: whatever stands at the port, a step answers a next state: no fault, no refusal. -/
def Obligations.EveryStepCompletes : Prop :=
  ∀ s : State, ∃ t, step s = .next t ∧ t.inputs = s.inputs.tail

/-- R200: the reset event sets every piece of state to its reset value, from every state. -/
def Obligations.ResetEventSetsEveryRegister : Prop :=
  ∀ (s : State) (rest : List Input), s.inputs = .rst :: rest →
    ∃ t, step s = .next t ∧ t.inputs = rest ∧
      t.block.state = 0xFFFFFFFF#32 ∧ t.block.count = 0#32 ∧ t.block.expect = 0#32 ∧ t.block.actual = 0#32 ∧
      t.block.vdone = false ∧ t.block.matchBit = false ∧ t.block.mismatchBit = false ∧
      t.block.errCmd = false ∧ t.block.errAcc = false

/-- R33: the value of every piece of state after reset, read through the port: RD STATE, RD COUNT, RD EXPECT, RD ACTUAL, RD STATUS and RD RESULT. -/
def Obligations.ResetValuesAsRead : Prop :=
  answers State.reset (transactions
      [0x21400000000#43, 0x21800000000#43, 0x20C00000000#43, 0x21C00000000#43, 0x20400000000#43, 0x21000000000#43]) =
    [some 0xFFFFFFFF#32, some 0#32, some 0#32, some 0#32, some 0#32, some 0#32]

/-- R201, R207 (marked derived in the spec): whatever happened before a reset, the block after it is the block of R33; an INIT right after a reset
changes nothing. -/
def Obligations.ResetForgetsWhatCameBefore : Prop :=
  ∀ (s : State) (before : List Input),
    (∃ t, serve s (before ++ [.rst]) = .next t ∧ t.block = Block.reset) ∧
    (∃ t, serve s (before ++ [.rst, .txn 0x60000000001#43]) = .next t ∧ t.block = Block.reset)

/-- R196, R202, and log entry 4: a power cycle leaves the drawn tuple and nothing of the old state; a reset after it leaves the block of R33, whatever
was drawn. -/
def Obligations.PowerCycleNeedsAReset : Prop :=
  ∀ s : State,
    (∃ t, serve s [.powerCycle] = .next t ∧
      t.block = Block.ofTuple (Config.powerUpTuple s.powerCycles) ∧ t.powerCycles = s.powerCycles + 1) ∧
    (∃ t, serve s [.powerCycle, .rst] = .next t ∧ t.block = Block.reset)

/-! ## The invariant of STATUS (10_state.md R28) -/

/-- R28 (marked derived in the spec): every step keeps `MATCH & MISMATCH = 0` and `VDONE = MATCH | MISMATCH`, as long as no power cycle is to come,
the launch premise of R202. -/
def Obligations.StepKeepsStatusInvariant : Prop :=
  ∀ s t : State, s.Inv → step s = .next t → t.Inv

/-- R28, R33: the invariant holds right after reset, and every reset event establishes it from any state in which power stays. -/
def Obligations.StatusInvariantHoldsAfterReset : Prop :=
  State.reset.Inv ∧
  ∀ (s t : State) (rest : List Input), s.powerStays = true → s.inputs = .rst :: rest → step s = .next t → t.Inv

/-! ## Commands (41_control_commands.md) -/

/-- R106: NOP is a legal transaction that changes no register, and it is the only write of which that is true in every state. -/
def Obligations.NopIsTheOnlyWriteWithNoEffect : Prop :=
  decode 0x60000000000#43 = .cmdNop ∧ legal 0x60000000000#43 = true ∧
  (∀ s : State, exec .cmdNop s = .next { s with rdata := none }) ∧
  ∀ tw : TW, TW.we tw = true → (∀ s t : State, exec (decode tw) s = .next t → t.block = s.block) → decode tw = .cmdNop

/-- R101: INIT's effect, what it leaves unchanged, and its corner cases: twice equals once, and right after reset it changes nothing. -/
def Obligations.InitStartsANewMessage : Prop :=
  decode 0x60000000001#43 = .cmdInit ∧
  (∀ s : State, exec .cmdInit s = .next { s with
    block := { s.block with
      state := 0xFFFFFFFF#32
      count := 0#32
      vdone := false
      matchBit := false
      mismatchBit := false }
    rdata := none }) ∧
  (∀ s t : State, exec .cmdInit s = .next t → exec .cmdInit t = .next t) ∧
  ∃ t, exec .cmdInit State.reset = .next t ∧ t.block = State.reset.block

/-- R102: VERIFY captures the computed CRC, sets VDONE and exactly one of MATCH and MISMATCH by comparing all 32 bits with EXPECT, and changes nothing else.
Twice equals once. -/
def Obligations.VerifyComparesWithExpect : Prop :=
  decode 0x60000000002#43 = .cmdVerify ∧
  (∀ s : State, ∃ t, exec .cmdVerify s = .next t ∧
    t = { s with
      block := { s.block with
        actual := s.block.state ^^^ 0xFFFFFFFF#32
        vdone := true
        matchBit := t.block.matchBit
        mismatchBit := t.block.mismatchBit }
      rdata := none } ∧
    (t.block.matchBit = true ↔ s.block.state ^^^ 0xFFFFFFFF#32 = s.block.expect) ∧
    (t.block.mismatchBit = true ↔ s.block.state ^^^ 0xFFFFFFFF#32 ≠ s.block.expect)) ∧
  (∀ s t : State, exec .cmdVerify s = .next t → exec .cmdVerify t = .next t)

/-- R103: CLRERR clears the two sticky error bits and changes nothing else. -/
def Obligations.ClrerrClearsTheErrorBits : Prop :=
  decode 0x60000000003#43 = .cmdClrerr ∧
  ∀ s : State, exec .cmdClrerr s = .next { s with
    block := { s.block with errCmd := false, errAcc := false }
    rdata := none }

/-- R105: a 4-byte write of any value above 3 to CTRL is a reserved command: ERR_CMD is set and no other register changes, whatever the value. -/
def Obligations.ReservedCommandSetsErrCmd : Prop :=
  (∀ c : Word, c ≠ 0#32 → c ≠ 1#32 → c ≠ 2#32 → c ≠ 3#32 →
    decode (TW.ofFields true 0b10#2 0x00#8 c) = .cmdRsvd c) ∧
  ∀ (c : Word) (s : State), exec (.cmdRsvd c) s = .next { s with
    block := { s.block with errCmd := true }
    rdata := none }

/-! ## Message input (42_data_input.md) -/

/-- R121: DIN.B absorbs `WDATA[7:0]` and counts one byte; `WDATA[31:8]` has no effect; nothing else changes. Its corner case: the
byte 0x00 still changes STATE, unless STATE is 0. -/
def Obligations.DinByteAbsorbsOneByte : Prop :=
  (∀ b : Byte, decode (0x40800000000#43 ||| b.setWidth 43) = .dinB 0#24 b) ∧
  (∀ s : Word, crcByte s 0#8 = s ↔ s = 0#32) ∧
  ∀ (x : BitVec 24) (b : Byte) (s : State), exec (.dinB x b) s = .next { s with
    block := { s.block with
      state := crcByte s.block.state b
      count := s.block.count + 1#32 }
    rdata := none }

/-- R122: DIN.H absorbs `WDATA[15:8]`, then `WDATA[7:0]`, and counts two bytes; `WDATA[31:16]` has no effect; nothing else changes. "IE" and "EI" never
leave the same STATE. -/
def Obligations.DinHalfAbsorbsTwoBytes : Prop :=
  (∀ h : BitVec 16, decode (0x50800000000#43 ||| h.setWidth 43) = .dinH 0#16 h) ∧
  (∀ s : Word, crcByte (crcByte s 0x49#8) 0x45#8 ≠ crcByte (crcByte s 0x45#8) 0x49#8) ∧
  ∀ (x : BitVec 16) (h : BitVec 16) (s : State), exec (.dinH x h) s = .next { s with
    block := { s.block with
      state := crcByte (crcByte s.block.state (h.extractLsb' 8 8)) (h.extractLsb' 0 8)
      count := s.block.count + 2#32 }
    rdata := none }

/-- R123: DIN.W absorbs the four bytes of WDATA, most significant first, and counts four; nothing else changes. -/
def Obligations.DinWordAbsorbsFourBytes : Prop :=
  (∀ w : Word, decode (0x60800000000#43 ||| w.setWidth 43) = .dinW w) ∧
  ∀ (w : Word) (s : State), exec (.dinW w) s = .next { s with
    block := { s.block with
      state := crcByte (crcByte (crcByte (crcByte s.block.state (w.extractLsb' 24 8)) (w.extractLsb' 16 8))
        (w.extractLsb' 8 8)) (w.extractLsb' 0 8)
      count := s.block.count + 4#32 }
    rdata := none }

/-- R58 (marked derived in the spec): one 2-byte DIN write equals its two 1-byte writes, and one 4-byte write equals two 2-byte writes and four 1-byte
writes. -/
def Obligations.MixedWidthDinWritesAgree : Prop :=
  (∀ (s : State) (h : BitVec 16),
    serve s (transactions [dinHalfWord h]) =
      serve s (transactions [dinByteWord (h.extractLsb' 8 8), dinByteWord (h.extractLsb' 0 8)])) ∧
  (∀ (s : State) (w : Word),
    serve s (transactions [writeWord .din w]) =
      serve s (transactions [dinHalfWord (w.extractLsb' 16 16), dinHalfWord (w.extractLsb' 0 16)])) ∧
  (∀ (s : State) (w : Word),
    serve s (transactions [writeWord .din w]) =
      serve s (transactions [dinByteWord (w.extractLsb' 24 8), dinByteWord (w.extractLsb' 16 8),
        dinByteWord (w.extractLsb' 8 8), dinByteWord (w.extractLsb' 0 8)]))

/-- R69 (the sentence marked derived there): ABSORB of a byte sequence leaves the block as one 1-byte DIN write for each byte, in order, does: STATE has
absorbed the bytes, COUNT has grown by their number, and nothing else has changed. -/
def Obligations.AbsorbExpansionAbsorbsItsBytes : Prop :=
  ∀ (s : State) (m : List Byte),
    ∃ t u, serve s (transactions (absorbWords m)) = .next t ∧
      serve s (transactions (m.map dinByteWord)) = .next u ∧ t.block = u.block ∧
      t.block = { s.block with
        state := absorb s.block.state m
        count := s.block.count + BitVec.ofNat 32 m.length }

/-! ## Register access (43_register_access.md) -/

/-- R140: a 4-byte write to 0x0C sets EXPECT, to any value, and changes nothing else; a write of another size there is an illegal access. -/
def Obligations.WriteExpectSetsExpect : Prop :=
  (∀ v : Word, decode (0x60C00000000#43 ||| v.setWidth 43) = .wrExpect v) ∧
  (∀ tw : TW, TW.we tw = true → TW.addr tw = 0x0C#8 → TW.size tw ≠ 0b10#2 → decode tw = .accIllegal tw) ∧
  ∀ (v : Word) (s : State),
    ∃ t, exec (.wrExpect v) s = .next t ∧ t = { s with block := { s.block with expect := v }, rdata := t.rdata }

/-- R141: RD.STATUS returns VDONE, MATCH, MISMATCH, ERR_CMD and ERR_ACC at bits 0, 1, 2, 8 and 9, with 0 at every other bit, and changes no state. -/
def Obligations.ReadStatusReturnsTheFlags : Prop :=
  decode 0x20400000000#43 = .rdStatus 0#32 ∧
  ∀ (x : Word) (s : State), ∃ v : Word, exec (.rdStatus x) s = .next { s with rdata := some v } ∧
    v.getLsbD 0 = s.block.vdone ∧ v.getLsbD 1 = s.block.matchBit ∧ v.getLsbD 2 = s.block.mismatchBit ∧
    v.getLsbD 8 = s.block.errCmd ∧ v.getLsbD 9 = s.block.errAcc ∧
    ∀ j, j ≠ 0 → j ≠ 1 → j ≠ 2 → j ≠ 8 → j ≠ 9 → v.getLsbD j = false

/-- R142 to R146: the reads of EXPECT, RESULT, STATE, COUNT and ACTUAL return the register, RESULT being `STATE ^ 0xFFFFFFFF`, and change no state;
their words are those the rules give. -/
def Obligations.ReadsReturnTheirRegisters : Prop :=
  decode 0x20C00000000#43 = .rdExpect 0#32 ∧ decode 0x21000000000#43 = .rdResult 0#32 ∧
  decode 0x21400000000#43 = .rdState 0#32 ∧ decode 0x21800000000#43 = .rdCount 0#32 ∧
  decode 0x21C00000000#43 = .rdActual 0#32 ∧
  ∀ (x : Word) (s : State),
    exec (.rdExpect x) s = .next { s with rdata := some s.block.expect } ∧
    exec (.rdResult x) s = .next { s with rdata := some (s.block.state ^^^ 0xFFFFFFFF#32) } ∧
    exec (.rdState x) s = .next { s with rdata := some s.block.state } ∧
    exec (.rdCount x) s = .next { s with rdata := some s.block.count } ∧
    exec (.rdActual x) s = .next { s with rdata := some s.block.actual }

/-- R147: any transaction that is not legal is ACC.ILLEGAL: ERR_ACC is set, a read returns 0, and nothing else changes. -/
def Obligations.IllegalAccessSetsErrAcc : Prop :=
  (∀ tw : TW, legal tw = false → decode tw = .accIllegal tw) ∧
  ∀ (a : TW) (s : State),
    ∃ t, exec (.accIllegal a) s = .next t ∧ t = { s with block := { s.block with errAcc := true }, rdata := t.rdata } ∧
      (TW.we a = false → t.rdata = some 0#32)

/-- R42, R47, R124: a transaction to a misaligned offset or to one above 0x1C, a read of DIN, and a write of DIN with the reserved size set ERR_ACC
alone. -/
def Obligations.OffsetsWithoutARegisterRaiseErrAcc : Prop :=
  ∀ (tw : TW) (s : State),
    (TW.addr tw).extractLsb' 0 2 ≠ 0b00#2 ∨ 0x1C#8 < TW.addr tw ∨
      (TW.addr tw = 0x08#8 ∧ (TW.we tw = false ∨ TW.size tw = 0b11#2)) →
    ∃ t, exec (decode tw) s = .next t ∧ t = { s with block := { s.block with errAcc := true }, rdata := t.rdata } ∧
      (TW.we tw = false → t.rdata = some 0#32)

/-! ## Rules about every transaction -/

/-- R32: which transactions write which flag, and to what. VDONE, MATCH and MISMATCH change only under VERIFY, which sets VDONE and one of the other
two, and INIT, which clears all three; ERR_CMD only under a reserved command, which sets it, and CLRERR, which clears it; ERR_ACC only under an illegal access,
which sets it, and CLRERR. So DIN writes, EXPECT writes and legal reads leave STATUS unchanged. -/
def Obligations.FlagsChangeOnlyWhereListed : Prop :=
  ∀ (i : Instr) (s t : State), exec i s = .next t →
    (i = .cmdVerify → t.block.vdone = true ∧ t.block.matchBit = !t.block.mismatchBit) ∧
    (i = .cmdInit → t.block.vdone = false ∧ t.block.matchBit = false ∧ t.block.mismatchBit = false) ∧
    (i ≠ .cmdVerify → i ≠ .cmdInit →
      t.block.vdone = s.block.vdone ∧ t.block.matchBit = s.block.matchBit ∧ t.block.mismatchBit = s.block.mismatchBit) ∧
    ((∃ c, i = .cmdRsvd c) → t.block.errCmd = true) ∧
    ((∃ a, i = .accIllegal a) → t.block.errAcc = true) ∧
    (i = .cmdClrerr → t.block.errCmd = false ∧ t.block.errAcc = false) ∧
    ((∀ c, i ≠ .cmdRsvd c) → i ≠ .cmdClrerr → t.block.errCmd = s.block.errCmd) ∧
    ((∀ a, i ≠ .accIllegal a) → i ≠ .cmdClrerr → t.block.errAcc = s.block.errAcc) ∧
    ((∃ x b, i = .dinB x b) ∨ (∃ x h, i = .dinH x h) ∨ (∃ w, i = .dinW w) ∨ (∃ v, i = .wrExpect v) ∨
        (10 ≤ i.priority ∧ i.priority ≤ 15) →
      t.block.status = s.block.status)

/-- R23 to R26: the only transactions that write STATE and COUNT are INIT and the DIN writes, EXPECT is written by WR.EXPECT alone, ACTUAL by VERIFY
alone. -/
def Obligations.RegistersHaveOnlyTheirWriters : Prop :=
  ∀ (i : Instr) (s t : State), exec i s = .next t →
    (t.block.state ≠ s.block.state ∨ t.block.count ≠ s.block.count →
      i = .cmdInit ∨ (∃ x b, i = .dinB x b) ∨ (∃ x h, i = .dinH x h) ∨ (∃ w, i = .dinW w)) ∧
    (t.block.expect ≠ s.block.expect → ∃ v, i = .wrExpect v ∧ t.block.expect = v) ∧
    (t.block.actual ≠ s.block.actual → i = .cmdVerify ∧ t.block.actual = s.block.state ^^^ 0xFFFFFFFF#32)

/-- R50: every transaction but a DIN write is idempotent: two in a row equal one. A DIN write never is: COUNT moves on. A legal read changes nothing in the
block. -/
def Obligations.OnlyDinWritesAreNotIdempotent : Prop :=
  ∀ (tw : TW) (s t : State), exec (decode tw) s = .next t →
    ((TW.we tw = true ∧ TW.addr tw = 0x08#8 ∧ TW.size tw ≠ 0b11#2) → exec (decode tw) t ≠ .next t) ∧
    (¬ (TW.we tw = true ∧ TW.addr tw = 0x08#8 ∧ TW.size tw ≠ 0b11#2) → exec (decode tw) t = .next t) ∧
    (TW.we tw = false → legal tw = true → t.block = s.block)

/-- R181, R182: each error has the causes the spec lists and no other, is recorded in its STATUS bit (8 or 9) with nothing else about it recorded, and a
transaction without a cause leaves both bits or, CLRERR, clears them. The causes are written out from the word's fields. -/
def Obligations.EachErrorHasItsCauses : Prop :=
  ∀ (tw : TW) (s t : State), exec (decode tw) s = .next t →
    let access := TW.size tw = 0b11#2 ∨ (TW.addr tw).extractLsb' 0 2 ≠ 0b00#2 ∨ 0x1C#8 < TW.addr tw ∨
      (TW.we tw = false ∧ (TW.addr tw = 0x00#8 ∨ TW.addr tw = 0x08#8)) ∨
      (TW.we tw = true ∧ (TW.addr tw = 0x04#8 ∨ TW.addr tw = 0x10#8 ∨ TW.addr tw = 0x14#8 ∨ TW.addr tw = 0x18#8 ∨ TW.addr tw = 0x1C#8)) ∨
      (TW.addr tw ≠ 0x08#8 ∧ TW.size tw ≠ 0b10#2)
    let command := TW.we tw = true ∧ TW.addr tw = 0x00#8 ∧ TW.size tw = 0b10#2 ∧ 3#32 < TW.wdata tw
    t.block.status.getLsbD 8 = t.block.errCmd ∧ t.block.status.getLsbD 9 = t.block.errAcc ∧
    (access → t.block = { s.block with errAcc := true }) ∧
    (command → t.block = { s.block with errCmd := true }) ∧
    (¬ access → t.block.errAcc = true → s.block.errAcc = true) ∧
    (¬ command → t.block.errCmd = true → s.block.errCmd = true)

/-- R186: one transaction raises at most one error, and a word that fails an access check raises ERR_ACC alone, whatever its WDATA. -/
def Obligations.OneErrorPerTransaction : Prop :=
  ∀ (tw : TW) (s t : State), exec (decode tw) s = .next t →
    ¬ ((s.block.errCmd = false ∧ t.block.errCmd = true) ∧ (s.block.errAcc = false ∧ t.block.errAcc = true)) ∧
    (legal tw = false → t.block.errAcc = true ∧ t.block.errCmd = s.block.errCmd)

/-- R188: the error bits are cleared by CLRERR and by reset, of all transactions only CLRERR clears one, another error leaves it 1, and an error bit that is 1 does not change how any transaction
behaves: with the error bits set to anything else, the transaction still leaves the same in every other place and returns the same (RD.STATUS, which reads
the bits, apart). -/
def Obligations.ErrorBitsLockNothing : Prop :=
  (∀ s : State, ∃ t, exec .cmdClrerr s = .next t ∧ t.block.noError = true) ∧
  (∀ s : State, ∃ t, serve s [.rst] = .next t ∧ t.block.noError = true) ∧
  (∀ (i : Instr) (s t : State), exec i s = .next t → i ≠ .cmdClrerr →
    (s.block.errCmd = true → t.block.errCmd = true) ∧ (s.block.errAcc = true → t.block.errAcc = true)) ∧
  ∀ (i : Instr) (s t : State) (ec ea : Bool), exec i s = .next t →
    ∃ u, exec i { s with block := { s.block with errCmd := ec, errAcc := ea } } = .next u ∧
      { u.block with errCmd := t.block.errCmd, errAcc := t.block.errAcc } = t.block ∧
      ((∀ x, i ≠ .rdStatus x) → u.rdata = t.rdata)

/-- R189 (marked derived in the spec): a host sequence without CLRERR that starts with both error bits 0 ends with both 0 exactly when no transaction of it was
a misuse. -/
def Obligations.ErrorBitsTellMisuse : Prop :=
  ∀ (s : State) (words : List TW), s.block.noError = true → (∀ tw ∈ words, decode tw ≠ .cmdClrerr) →
    ∃ t, serve s (transactions words) = .next t ∧
      (t.block.noError = true ↔ ∀ tw ∈ words, isMisuse tw = false)

/-- R34 (marked derived in the spec), R53: two blocks with equal 133-bit tuples answer every sequence of transactions and resets alike and end with equal
tuples, whatever RDATA held before and whatever inputs come later. -/
def Obligations.EqualBlocksRespondIdentically : Prop :=
  ∀ (s t : State) (ins : List Input), s.block = t.block → (∀ x ∈ ins, x ≠ .powerCycle) →
    answers s ins = answers t ins ∧
    ∃ u v, serve s ins = .next u ∧ serve t ins = .next v ∧ u.block = v.block ∧
      u.inputs = s.inputs ∧ v.inputs = t.inputs

/-- R34: every element of the tuple can be read back: two blocks that answer RD STATUS, RD STATE, RD COUNT, RD EXPECT and RD ACTUAL alike hold equal
tuples. -/
def Obligations.TheWholeBlockCanBeReadBack : Prop :=
  ∀ s t : State,
    answers s (transactions [0x20400000000#43, 0x21400000000#43, 0x21800000000#43, 0x20C00000000#43, 0x21C00000000#43]) =
      answers t (transactions [0x20400000000#43, 0x21400000000#43, 0x21800000000#43, 0x20C00000000#43, 0x21C00000000#43]) →
    s.block = t.block

/-- R34: the complete state is a tuple of 133 bits: blocks and tuples correspond one to one. -/
def Obligations.TheBlockIsA133BitTuple : Prop :=
  (∀ b : Block, Block.ofTuple b.toTuple = b) ∧ (∀ t : BitVec 133, (Block.ofTuple t).toTuple = t)

/-- R40: a host address reaches the block at offset `A - CRC_BASE` exactly when it lies in the 256 bytes from CRC_BASE, whatever CRC_BASE is. -/
def Obligations.WindowSitsAtCrcBase : Prop :=
  ∀ (we : Bool) (size : SizeCode) (address : Nat) (wdata : Word),
    (Config.crcBase ≤ address ∧ address < Config.crcBase + 256 →
      ∃ tw, hostAccess we size address wdata = some tw ∧ TW.we tw = we ∧ TW.size tw = size ∧ TW.wdata tw = wdata ∧
        (TW.addr tw).toNat = address - Config.crcBase) ∧
    (¬ (Config.crcBase ≤ address ∧ address < Config.crcBase + 256) → hostAccess we size address wdata = none)

/-! ## The CRC-32 function (40_crc_function.md) -/

/-- R82, R84: the reflected polynomial is the normal form with its bits in reverse order, the corner cases of `crc_byte`, and the check value. -/
def Obligations.CrcCornerCases : Prop :=
  polyNormal.reverse = polyReflected ∧
  crcByte 0#32 0x00#8 = 0#32 ∧ crcByte 0#32 0x80#8 = 0xEDB88320#32 ∧ crcByte 0xFFFFFFFF#32 0x00#8 = 0x2DFD1072#32 ∧
  crc32 [0x31#8, 0x32#8, 0x33#8, 0x34#8, 0x35#8, 0x36#8, 0x37#8, 0x38#8, 0x39#8] = 0xCBF43926#32

/-- R85: a message may be split anywhere and absorbed in pieces. -/
def Obligations.AbsorbSplitsAnywhere : Prop :=
  ∀ (s : Word) (a b : List Byte), absorb s (a ++ b) = absorb (absorb s a) b

/-- R89 (marked derived in the spec): the table form of `crc_byte` gives the same value. -/
def Obligations.TableFormAgrees : Prop :=
  ∀ (s : Word) (b : Byte), crcByteByTable s b = crcByte s b

/-- R88 (marked derived in the spec): the polynomial form. For `n = 8 len(m)` serial bits, `R = (x^32 M + x^n L) mod G` over GF(2), and bit `31 - i` of
`CRC32(m)` is the complement of the coefficient of `x^i` in `R`. -/
def Obligations.PolynomialFormAgrees : Prop :=
  ∀ m : List Byte,
    let n := 8 * m.length
    let X : Polynomial (ZMod 2) := Polynomial.X
    let G : Polynomial (ZMod 2) :=
      X ^ 32 + X ^ 26 + X ^ 23 + X ^ 22 + X ^ 16 + X ^ 12 + X ^ 11 + X ^ 10 + X ^ 8 + X ^ 7 + X ^ 5 + X ^ 4 + X ^ 2 + X + 1
    let M : Polynomial (ZMod 2) := ∑ j ∈ Finset.range n, if serialBit m j then X ^ (n - 1 - j) else 0
    let L : Polynomial (ZMod 2) := ∑ i ∈ Finset.range 32, X ^ i
    let R : Polynomial (ZMod 2) := (X ^ 32 * M + X ^ n * L) %ₘ G
    R.degree < 32 ∧ ∀ i, i < 32 → ((crc32 m).getLsbD (31 - i) = true ↔ R.coeff i = 0)

/-- R90 (marked derived in the spec): the affine law, for three messages of equal length. -/
def Obligations.CrcIsAffine : Prop :=
  ∀ a b c : List Byte, a.length = b.length → b.length = c.length →
    crc32 (xorBytes (xorBytes a b) c) = crc32 a ^^^ crc32 b ^^^ crc32 c

/-- R91 (marked derived in the spec): two different messages of the same length whose differing bits all lie within 32 consecutive serial bits have different
CRCs; a single flipped bit is the case of one. -/
def Obligations.BurstErrorsAreDetected : Prop :=
  ∀ (a b : List Byte) (j : Nat), a.length = b.length → a ≠ b →
    (∀ i, serialBit a i ≠ serialBit b i → j ≤ i ∧ i < j + 32) → crc32 a ≠ crc32 b

/-- R94 (marked derived in the spec): a message followed by its CRC, least significant byte first, leaves the residue. -/
def Obligations.LittleEndianCrcLeavesTheResidue : Prop :=
  ∀ m : List Byte, absorb 0xFFFFFFFF#32 (m ++ le32 (crc32 m)) = 0xDEBB20E3#32

/-- R169 (marked derived in the spec): a message followed by its CRC big-endian, as a chunk stores it, leaves no fixed value. It leaves the residue only where
the CRC reads the same in both byte orders, and the spec's two messages leave two values. The spec prints those two values the other way round: log entry 17
says why the model follows R84 to R87, so the last two clauses are the model's ruling. -/
def Obligations.BigEndianCrcLeavesNoFixedResidue : Prop :=
  (∀ m : List Byte, absorb 0xFFFFFFFF#32 (m ++ be32 (crc32 m)) = 0xDEBB20E3#32 ↔ be32 (crc32 m) = le32 (crc32 m)) ∧
  (let m := [0x49#8, 0x45#8, 0x4E#8, 0x44#8]
   absorb 0xFFFFFFFF#32 (m ++ be32 (crc32 m)) = 0x9AFC8828#32) ∧
  let m := [0x31#8, 0x32#8, 0x33#8, 0x34#8, 0x35#8, 0x36#8, 0x37#8, 0x38#8, 0x39#8]
  absorb 0xFFFFFFFF#32 (m ++ be32 (crc32 m)) = 0xC3368BD3#32

/-! ## Messages and chunks through the port (42_data_input.md, 44_chunk_procedures.md) -/

/-- R87, R95, R126: after INIT and any sequence of DIN writes, however the bytes are grouped, RD RESULT returns the CRC-32 of the bytes written, in order, and
RD COUNT returns their number modulo 2^32. -/
def Obligations.ResultIsTheCrcOfTheBytesWritten : Prop :=
  ∀ (s : State) (writes : List (Nat × Word)), (∀ p ∈ writes, p.1 = 1 ∨ p.1 = 2 ∨ p.1 = 4) →
    let words := writes.map fun p =>
      TW.ofFields true (if p.1 = 1 then 0b00#2 else if p.1 = 2 then 0b01#2 else 0b10#2) 0x08#8 p.2
    let bytes := writes.flatMap fun p => messageBytes p.1 p.2
    (∃ t, serve s (transactions (0x60000000001#43 :: words ++ [0x21000000000#43])) = .next t ∧
      t.rdata = some (crc32 bytes)) ∧
    (∃ t, serve s (transactions (0x60000000001#43 :: words ++ [0x21800000000#43])) = .next t ∧
      t.rdata = some (BitVec.ofNat 32 bytes.length))

/-- R125: a DIN write always continues from the current STATE, whether an INIT or a reset came before the first message, and across a VERIFY without a new
INIT: RESULT is the CRC of the concatenation. -/
def Obligations.MessagesContinueWithoutInit : Prop :=
  ∀ (s : State) (start : Input) (a b : List Byte) (v : Word), start = .txn 0x60000000001#43 ∨ start = .rst →
    (∃ t, serve s (start :: transactions (assemble [.absorb a, .absorb b, .rd .result])) = .next t ∧ t.rdata = some (crc32 (a ++ b))) ∧
    ∃ t, serve s (start :: transactions (assemble [.absorb a, .ldexp v, .verify, .absorb b, .rd .result])) = .next t ∧
      t.rdata = some (crc32 (a ++ b))

/-- R92 (marked derived in the spec): generation and verification use one function: what RD RESULT returns is what VERIFY captures. -/
def Obligations.ResultEqualsVerifiedActual : Prop :=
  ∀ s : State, ∃ t u, serve s (transactions (assemble [.rd .result])) = .next t ∧
    serve s (transactions (assemble [.verify, .rd .actual])) = .next u ∧ t.rdata = u.rdata

/-- R161, R162: the generation procedure, from any state, returns `CRC32(type ++ data)`, for any type and data bytes. -/
def Obligations.GenerationReturnsTheChunkCrc : Prop :=
  ∀ (s : State) (type data : List Byte),
    ∃ t, serve s (transactions (assemble (generationLines type data))) = .next t ∧
      t.rdata = some (crc32 (chunkMessage type data))

/-- R163, R164: the verification procedure, from any state and for any framed record: RD STATUS shows VDONE, and MATCH or MISMATCH as the stored CRC equals the
CRC of the type and data bytes or not; RD ACTUAL returns the computed CRC; a mismatch is reported with the stored and the computed value. -/
def Obligations.VerificationTellsWhetherTheCrcMatches : Prop :=
  ∀ (s : State) (r : List Byte), recordFramed r = true →
    ∃ t, serve s (transactions (assemble (verificationLines r))) = .next t ∧
      t.rdata = some (crc32 (recordMessage r)) ∧
      t.block.vdone = true ∧
      (t.block.matchBit = true ↔ recordStored r = crc32 (recordMessage r)) ∧
      (t.block.mismatchBit = true ↔ recordStored r ≠ crc32 (recordMessage r)) ∧
      crcMismatch t.block =
        (if recordStored r = crc32 (recordMessage r) then none else some (recordStored r, crc32 (recordMessage r))) ∧
      ∃ u, serve s (transactions (assemble ((verificationLines r).take 5))) = .next u ∧ u.rdata = some t.block.status

/-- R166 (marked derived in the spec): the record that generation writes for any 4 type bytes and any data is framed, and verification gives MATCH with ACTUAL
equal to the generated CRC. -/
def Obligations.GeneratedRecordsVerify : Prop :=
  ∀ (s : State) (type data : List Byte), type.length = 4 → data.length < 2 ^ 32 →
    let r := chunkRecord type data (crc32 (chunkMessage type data))
    recordFramed r = true ∧
    ∃ t, serve s (transactions (assemble (verificationLines r))) = .next t ∧
      t.block.matchBit = true ∧ t.block.mismatchBit = false ∧
      t.block.actual = crc32 (chunkMessage type data)

/-- R170 (marked derived in the spec): one flipped bit anywhere in the type, data or stored-CRC region of a generated record gives MISMATCH. -/
def Obligations.OneFlippedBitIsAMismatch : Prop :=
  ∀ (s : State) (type data : List Byte) (p k : Nat), type.length = 4 → data.length < 2 ^ 32 →
    4 ≤ p → p < 12 + data.length → k < 8 →
    let r := (chunkRecord type data (crc32 (chunkMessage type data))).modify p (fun b => b ^^^ (1#8 <<< k))
    ∃ t, serve s (transactions (assemble (verificationLines r))) = .next t ∧
      t.block.mismatchBit = true ∧ t.block.matchBit = false
end

