-- ==== Sys2Proof/Laws/Crc.lean ====
section
/-!
SUPPORT. The CRC register update is linear over GF(2), and feeding message bits one by one is the byte update (40_crc_function.md R84, R85).
-/
namespace Sys2Proof.Machine

/-! ## Linearity -/

theorem crcBit_eq (s : Word) :
    crcBit s = (s >>> 1) ^^^ (if s.getLsbD 0 then polyReflected else 0#32) := by
  rw [crcBit]
  split <;> simp

@[simp] theorem crcBit_zero : crcBit 0#32 = 0#32 := by decide

theorem crcBit_xor (s t : Word) : crcBit (s ^^^ t) = crcBit s ^^^ crcBit t := by
  rw [crcBit_eq, crcBit_eq s, crcBit_eq t, BitVec.ushiftRight_xor_distrib, BitVec.getLsbD_xor]
  rcases Bool.eq_false_or_eq_true (s.getLsbD 0) with hs | hs <;> rcases Bool.eq_false_or_eq_true (t.getLsbD 0) with ht | ht <;>
    rw [hs, ht]
  · simp
    ac_nf
    simp
  · simp
    ac_nf
  · simp
    ac_nf
  · simp

@[simp] theorem crcBits_zero_word (n : Nat) : crcBits n 0#32 = 0#32 := by
  induction n with
  | zero => rfl
  | succ n ih => rw [crcBits, crcBit_zero, ih]

theorem crcBits_xor (n : Nat) (s t : Word) : crcBits n (s ^^^ t) = crcBits n s ^^^ crcBits n t := by
  induction n generalizing s t with
  | zero => rfl
  | succ n ih => rw [crcBits, crcBit_xor, ih, crcBits, crcBits]

theorem crcBits_add (m n : Nat) (s : Word) : crcBits (m + n) s = crcBits n (crcBits m s) := by
  induction m generalizing s with
  | zero => rw [Nat.zero_add, crcBits]
  | succ m ih => rw [Nat.add_right_comm, crcBits, ih, crcBits]

theorem crcByte_xor (s t : Word) (a b : Byte) :
    crcByte (s ^^^ t) (a ^^^ b) = crcByte s a ^^^ crcByte t b := by
  rw [crcByte, crcByte, crcByte, ← crcBits_xor, BitVec.setWidth_xor]
  congr 1
  ac_rfl

/-! ## The update loses nothing -/

/-- The turn of the loop that undoes `crcBit`: bit 31 tells whether the polynomial was folded in. -/
theorem crcBit_eq_zero {s : Word} (h : crcBit s = 0#32) : s = 0#32 := by
  have h31 : (crcBit s).getLsbD 31 = s.getLsbD 0 := by
    rw [crcBit_eq, BitVec.getLsbD_xor, BitVec.getLsbD_ushiftRight]
    cases s.getLsbD 0 <;> simp [polyReflected]
  rw [h] at h31
  have h0 : s.getLsbD 0 = false := by simpa using h31.symm
  rw [crcBit_eq, h0] at h
  have hs : s >>> 1 = 0#32 := by simpa using h
  apply BitVec.eq_of_getLsbD_eq
  intro i hi
  cases i with
  | zero => simpa using h0
  | succ i =>
    have := congrArg (fun v : Word => v.getLsbD i) hs
    simpa [BitVec.getLsbD_ushiftRight, Nat.add_comm] using this

theorem crcBits_eq_zero {n : Nat} {s : Word} (h : crcBits n s = 0#32) : s = 0#32 := by
  induction n generalizing s with
  | zero => exact h
  | succ n ih => exact crcBit_eq_zero (ih h)

/-! ## Turns that fold nothing in -/

/-- While the bits that leave are 0, the loop only shifts. -/
theorem crcBits_of_low_zero (n : Nat) (s : Word) (h : ∀ i, i < n → s.getLsbD i = false) : crcBits n s = s >>> n := by
  induction n generalizing s with
  | zero => simp [crcBits]
  | succ n ih =>
    have h0 : crcBit s = s >>> 1 := by rw [crcBit, h 0 (by omega)]; rfl
    rw [crcBits, h0, ih, ← BitVec.shiftRight_add, Nat.add_comm]
    intro i hi
    rw [BitVec.getLsbD_ushiftRight]
    exact h _ (by omega)

/-- A whole word folded into the register: its low byte goes in now, the rest one byte later. -/
theorem crcBits_eight_xor (s v : Word) :
    crcBits 8 (s ^^^ v) = crcByte s (v.extractLsb' 0 8) ^^^ (v >>> 8) := by
  have hv : v = (v.extractLsb' 0 8).setWidth 32 ^^^ ((v >>> 8) <<< 8) := by
    apply BitVec.eq_of_getLsbD_eq
    intro i hi
    rw [BitVec.getLsbD_xor, BitVec.getLsbD_setWidth, BitVec.getLsbD_extractLsb', BitVec.getLsbD_shiftLeft,
      BitVec.getLsbD_ushiftRight]
    by_cases h : i < 8
    · simp [h, hi]
    · have h8 : 8 + (i - 8) = i := by omega
      simp [h, hi, h8]
  conv_lhs => rw [hv, ← BitVec.xor_assoc, crcBits_xor]
  rw [crcByte]
  congr 1
  rw [crcBits_of_low_zero]
  · apply BitVec.eq_of_getLsbD_eq
    intro i hi
    rw [BitVec.getLsbD_ushiftRight, BitVec.getLsbD_shiftLeft]
    by_cases h : 8 + i < 32
    · simp [h]
    · simp [h, BitVec.getLsbD_ushiftRight, BitVec.getLsbD_of_ge v (8 + i) (by omega)]
  · intro i hi
    simp [hi]

/-! ## Messages -/

@[simp] theorem absorb_nil (s : Word) : absorb s [] = s := rfl

@[simp] theorem absorb_cons (s : Word) (b : Byte) (m : List Byte) :
    absorb s (b :: m) = absorb (crcByte s b) m := rfl

@[simp] theorem finalize_finalize (s : Word) : finalize (finalize s) = s := by
  rw [finalize, finalize, BitVec.xor_assoc, BitVec.xor_self, BitVec.xor_zero]

theorem finalize_injective {s t : Word} (h : finalize s = finalize t) : s = t := by
  rw [← finalize_finalize s, h, finalize_finalize]

end Sys2Proof.Machine
end

