-- ==== Sys2Proof/Laws/Decode.lean ====
section
/-!
SUPPORT. The fields of a word built from fields, and a word built from its own fields; the table's masks read through the fields.
-/
namespace Sys2Proof

/-! ## Bits of the concatenations -/

theorem TW.getLsbD_ofFields (we : Bool) (size : SizeCode) (addr : Offset) (wdata : Word) (i : Nat) :
    (TW.ofFields we size addr wdata).getLsbD i =
      if i < 32 then wdata.getLsbD i
      else if i - 32 < 8 then addr.getLsbD (i - 32)
      else if i - 32 - 8 < 2 then size.getLsbD (i - 32 - 8)
      else (BitVec.ofBool we).getLsbD (i - 32 - 8 - 2) := by
  simp only [TW.ofFields, BitVec.getLsbD_cast, BitVec.getLsbD_append]

theorem getLsbD_wdataOfByte (x : BitVec 24) (b : BitVec 8) (i : Nat) :
    (wdataOfByte x b).getLsbD i = if i < 8 then b.getLsbD i else x.getLsbD (i - 8) := by
  simp only [wdataOfByte, BitVec.getLsbD_cast, BitVec.getLsbD_append]

theorem getLsbD_wdataOfHalf (x : BitVec 16) (h : BitVec 16) (i : Nat) :
    (wdataOfHalf x h).getLsbD i = if i < 16 then h.getLsbD i else x.getLsbD (i - 16) := by
  simp only [wdataOfHalf, BitVec.getLsbD_cast, BitVec.getLsbD_append]

/-! ## Fields (R61) -/

@[simp] theorem TW.we_ofFields (we : Bool) (size : SizeCode) (addr : Offset) (wdata : Word) :
    TW.we (TW.ofFields we size addr wdata) = we := by
  rw [TW.we, TW.getLsbD_ofFields]
  cases we <;> rfl

@[simp] theorem TW.size_ofFields (we : Bool) (size : SizeCode) (addr : Offset) (wdata : Word) :
    TW.size (TW.ofFields we size addr wdata) = size := by
  apply BitVec.eq_of_getLsbD_eq
  intro i hi
  have h1 : ¬ (40 + i < 32) := by omega
  have h2 : ¬ (40 + i - 32 < 8) := by omega
  have h3 : 40 + i - 32 - 8 = i := by omega
  rw [TW.size, BitVec.getLsbD_extractLsb', TW.getLsbD_ofFields, if_neg h1, if_neg h2, h3, if_pos hi]
  simp [hi]

@[simp] theorem TW.addr_ofFields (we : Bool) (size : SizeCode) (addr : Offset) (wdata : Word) :
    TW.addr (TW.ofFields we size addr wdata) = addr := by
  apply BitVec.eq_of_getLsbD_eq
  intro i hi
  have h1 : ¬ (32 + i < 32) := by omega
  have h2 : 32 + i - 32 = i := by omega
  rw [TW.addr, BitVec.getLsbD_extractLsb', TW.getLsbD_ofFields, if_neg h1, h2, if_pos hi]
  simp [hi]

@[simp] theorem TW.wdata_ofFields (we : Bool) (size : SizeCode) (addr : Offset) (wdata : Word) :
    TW.wdata (TW.ofFields we size addr wdata) = wdata := by
  apply BitVec.eq_of_getLsbD_eq
  intro i hi
  rw [TW.wdata, BitVec.getLsbD_extractLsb', Nat.zero_add, TW.getLsbD_ofFields, if_pos hi]
  simp [hi]

/-- A word is made of its fields (R61). -/
@[simp] theorem TW.ofFields_fields (tw : TW) :
    TW.ofFields (TW.we tw) (TW.size tw) (TW.addr tw) (TW.wdata tw) = tw := by
  apply BitVec.eq_of_getLsbD_eq
  intro i hi
  rw [TW.getLsbD_ofFields]
  by_cases h1 : i < 32
  · simp [TW.wdata, h1]
  · by_cases h2 : i - 32 < 8
    · have h3 : 32 + (i - 32) = i := by omega
      simp [TW.addr, h1, h2, h3]
    · by_cases h4 : i - 32 - 8 < 2
      · have h5 : 40 + (i - 32 - 8) = i := by omega
        simp [TW.size, h1, h2, h4, h5]
      · have h5 : i = 42 := by omega
        subst h5
        simp [TW.we]

/-- Two words are equal when their fields are. -/
theorem TW.ext_fields {v w : TW} (hwe : TW.we v = TW.we w) (hsize : TW.size v = TW.size w)
    (haddr : TW.addr v = TW.addr w) (hwdata : TW.wdata v = TW.wdata w) : v = w := by
  rw [← TW.ofFields_fields v, ← TW.ofFields_fields w, hwe, hsize, haddr, hwdata]

/-- Equality with a word given by its fields, field by field. -/
theorem TW.eq_ofFields_iff (tw : TW) (we : Bool) (size : SizeCode) (addr : Offset) (wdata : Word) :
    tw = TW.ofFields we size addr wdata ↔
      TW.we tw = we ∧ TW.size tw = size ∧ TW.addr tw = addr ∧ TW.wdata tw = wdata := by
  constructor
  · rintro rfl
    simp
  · rintro ⟨h1, h2, h3, h4⟩
    apply TW.ext_fields <;> simp [h1, h2, h3, h4]

/-! ## The table's masks (R65) -/

/-- The mask of the table's rows with operands keeps WE, SIZE and ADDR and clears WDATA. -/
theorem TW.and_operandMask (tw : TW) :
    tw &&& 0x7FF00000000#43 = TW.ofFields (TW.we tw) (TW.size tw) (TW.addr tw) 0#32 := by
  have hm : (0x7FF00000000#43 : TW) = (BitVec.allOnes 43) <<< 32 := by decide
  apply BitVec.eq_of_getLsbD_eq
  intro i hi
  rw [hm]
  conv_lhs => rw [← TW.ofFields_fields tw]
  rw [BitVec.getLsbD_and, TW.getLsbD_ofFields, TW.getLsbD_ofFields, BitVec.getLsbD_shiftLeft,
    BitVec.getLsbD_allOnes]
  by_cases h : i < 32
  · rw [if_pos h, if_pos h]
    simp [h]
  · have h1 : i - 32 < 43 := by omega
    rw [if_neg h, if_neg h]
    simp [h, h1, hi]

/-- The mask of the table's command rows keeps every bit. -/
theorem TW.and_wholeMask (tw : TW) : tw &&& 0x7FFFFFFFFFF#43 = tw := by
  have h : (0x7FFFFFFFFFF#43 : TW) = BitVec.allOnes 43 := by decide
  rw [h, BitVec.and_allOnes]

/-! ## WDATA of the narrow DIN writes (R121, R122) -/

@[simp] theorem extract_ignored_wdataOfByte (x : BitVec 24) (b : BitVec 8) :
    (wdataOfByte x b).extractLsb' 8 24 = x := by
  apply BitVec.eq_of_getLsbD_eq
  intro i hi
  rw [BitVec.getLsbD_extractLsb', getLsbD_wdataOfByte]
  simp [hi]

@[simp] theorem extract_operand_wdataOfByte (x : BitVec 24) (b : BitVec 8) :
    (wdataOfByte x b).extractLsb' 0 8 = b := by
  apply BitVec.eq_of_getLsbD_eq
  intro i hi
  rw [BitVec.getLsbD_extractLsb', getLsbD_wdataOfByte]
  simp [hi]

@[simp] theorem extract_ignored_wdataOfHalf (x : BitVec 16) (h : BitVec 16) :
    (wdataOfHalf x h).extractLsb' 16 16 = x := by
  apply BitVec.eq_of_getLsbD_eq
  intro i hi
  rw [BitVec.getLsbD_extractLsb', getLsbD_wdataOfHalf]
  simp [hi]

@[simp] theorem extract_operand_wdataOfHalf (x : BitVec 16) (h : BitVec 16) :
    (wdataOfHalf x h).extractLsb' 0 16 = h := by
  apply BitVec.eq_of_getLsbD_eq
  intro i hi
  rw [BitVec.getLsbD_extractLsb', getLsbD_wdataOfHalf]
  simp [hi]

/-- A 32-bit word is the ignored part and the operand of a DIN.B write. -/
@[simp] theorem wdataOfByte_extract (w : Word) :
    wdataOfByte (w.extractLsb' 8 24) (w.extractLsb' 0 8) = w := by
  apply BitVec.eq_of_getLsbD_eq
  intro i hi
  rw [getLsbD_wdataOfByte]
  by_cases h : i < 8
  · simp [h]
  · have h1 : i - 8 < 24 := by omega
    have h2 : 8 + (i - 8) = i := by omega
    simp [h, h1, h2]

/-- A 32-bit word is the ignored part and the operand of a DIN.H write. -/
@[simp] theorem wdataOfHalf_extract (w : Word) :
    wdataOfHalf (w.extractLsb' 16 16) (w.extractLsb' 0 16) = w := by
  apply BitVec.eq_of_getLsbD_eq
  intro i hi
  rw [getLsbD_wdataOfHalf]
  by_cases h : i < 16
  · simp [h]
  · have h1 : i - 16 < 16 := by omega
    have h2 : 16 + (i - 16) = i := by omega
    simp [h, h1, h2]

/-! ## The decoder, said once (R66, R147) -/

/-- An illegal word meets no condition of the decoder, so it falls to the last row. -/
theorem decode_of_not_legal {tw : TW} (h : legal tw = false) : decode tw = .accIllegal tw := by
  have hcases : ∀ (we : Bool) (size : SizeCode) (addr : Offset), TW.we tw = we → TW.size tw = size → TW.addr tw = addr →
      ¬ (we = true ∧ size = 0b10#2 ∧ addr = 0x00#8) ∧ ¬ (we = true ∧ addr = 0x08#8 ∧ size = 0b00#2) ∧
      ¬ (we = true ∧ addr = 0x08#8 ∧ size = 0b01#2) ∧ ¬ (we = true ∧ addr = 0x08#8 ∧ size = 0b10#2) ∧
      ¬ (we = true ∧ addr = 0x0C#8 ∧ size = 0b10#2) ∧ ¬ (we = false ∧ size = 0b10#2 ∧ addr = 0x04#8) ∧
      ¬ (we = false ∧ size = 0b10#2 ∧ addr = 0x0C#8) ∧ ¬ (we = false ∧ size = 0b10#2 ∧ addr = 0x10#8) ∧
      ¬ (we = false ∧ size = 0b10#2 ∧ addr = 0x14#8) ∧ ¬ (we = false ∧ size = 0b10#2 ∧ addr = 0x18#8) ∧
      ¬ (we = false ∧ size = 0b10#2 ∧ addr = 0x1C#8) := by
    intro we size addr hwe hsize haddr
    rw [legal, hwe, hsize, haddr] at h
    refine ⟨?_, ?_, ?_, ?_, ?_, ?_, ?_, ?_, ?_, ?_, ?_⟩ <;>
      (rintro ⟨rfl, rfl, rfl⟩; revert h; decide)
  obtain ⟨h1, h2, h3, h4, h5, h6, h7, h8, h9, h10, h11⟩ := hcases _ _ _ rfl rfl rfl
  rw [decode, if_neg h1, if_neg h2, if_neg h3, if_neg h4, if_neg h5, if_neg h6, if_neg h7, if_neg h8, if_neg h9,
    if_neg h10, if_neg h11]

/-- The fields a legal word can have (R147): the accepted combinations of R48. -/
theorem fields_of_legal {tw : TW} (h : legal tw = true) :
    (TW.we tw = true ∧ TW.addr tw = 0x00#8 ∧ TW.size tw = 0b10#2) ∨
    (TW.we tw = true ∧ TW.addr tw = 0x08#8 ∧ TW.size tw = 0b00#2) ∨
    (TW.we tw = true ∧ TW.addr tw = 0x08#8 ∧ TW.size tw = 0b01#2) ∨
    (TW.we tw = true ∧ TW.addr tw = 0x08#8 ∧ TW.size tw = 0b10#2) ∨
    (TW.we tw = true ∧ TW.addr tw = 0x0C#8 ∧ TW.size tw = 0b10#2) ∨
    (TW.we tw = false ∧ TW.addr tw = 0x04#8 ∧ TW.size tw = 0b10#2) ∨
    (TW.we tw = false ∧ TW.addr tw = 0x0C#8 ∧ TW.size tw = 0b10#2) ∨
    (TW.we tw = false ∧ TW.addr tw = 0x10#8 ∧ TW.size tw = 0b10#2) ∨
    (TW.we tw = false ∧ TW.addr tw = 0x14#8 ∧ TW.size tw = 0b10#2) ∨
    (TW.we tw = false ∧ TW.addr tw = 0x18#8 ∧ TW.size tw = 0b10#2) ∨
    (TW.we tw = false ∧ TW.addr tw = 0x1C#8 ∧ TW.size tw = 0b10#2) := by
  revert h
  rw [legal]
  generalize TW.we tw = we
  generalize TW.size tw = size
  generalize TW.addr tw = addr
  revert we size addr
  decide +kernel

theorem decode_command (wdata : Word) :
    decode (TW.ofFields true 0b10#2 0x00#8 wdata) = decodeCommand wdata := by
  simp [decode]

theorem decode_dinB (wdata : Word) :
    decode (TW.ofFields true 0b00#2 0x08#8 wdata) = .dinB (wdata.extractLsb' 8 24) (wdata.extractLsb' 0 8) := by
  simp [decode]

theorem decode_dinH (wdata : Word) :
    decode (TW.ofFields true 0b01#2 0x08#8 wdata) = .dinH (wdata.extractLsb' 16 16) (wdata.extractLsb' 0 16) := by
  simp [decode]

theorem decode_dinW (wdata : Word) : decode (TW.ofFields true 0b10#2 0x08#8 wdata) = .dinW wdata := by
  simp [decode]

theorem decode_wrExpect (wdata : Word) : decode (TW.ofFields true 0b10#2 0x0C#8 wdata) = .wrExpect wdata := by
  simp [decode]

theorem decode_rdStatus (wdata : Word) : decode (TW.ofFields false 0b10#2 0x04#8 wdata) = .rdStatus wdata := by
  simp [decode]

theorem decode_rdExpect (wdata : Word) : decode (TW.ofFields false 0b10#2 0x0C#8 wdata) = .rdExpect wdata := by
  simp [decode]

theorem decode_rdResult (wdata : Word) : decode (TW.ofFields false 0b10#2 0x10#8 wdata) = .rdResult wdata := by
  simp [decode]

theorem decode_rdState (wdata : Word) : decode (TW.ofFields false 0b10#2 0x14#8 wdata) = .rdState wdata := by
  simp [decode]

theorem decode_rdCount (wdata : Word) : decode (TW.ofFields false 0b10#2 0x18#8 wdata) = .rdCount wdata := by
  simp [decode]

theorem decode_rdActual (wdata : Word) : decode (TW.ofFields false 0b10#2 0x1C#8 wdata) = .rdActual wdata := by
  simp [decode]

/-- Every word is illegal, or one of the eleven legal forms with some WDATA: the case split for claims about all words. -/
theorem word_cases (P : TW → Prop) (tw : TW)
    (illegal : ∀ a, legal a = false → P a)
    (command : ∀ w, P (TW.ofFields true 0b10#2 0x00#8 w))
    (dinB : ∀ w, P (TW.ofFields true 0b00#2 0x08#8 w))
    (dinH : ∀ w, P (TW.ofFields true 0b01#2 0x08#8 w))
    (dinW : ∀ w, P (TW.ofFields true 0b10#2 0x08#8 w))
    (wrExpect : ∀ w, P (TW.ofFields true 0b10#2 0x0C#8 w))
    (rdStatus : ∀ w, P (TW.ofFields false 0b10#2 0x04#8 w))
    (rdExpect : ∀ w, P (TW.ofFields false 0b10#2 0x0C#8 w))
    (rdResult : ∀ w, P (TW.ofFields false 0b10#2 0x10#8 w))
    (rdState : ∀ w, P (TW.ofFields false 0b10#2 0x14#8 w))
    (rdCount : ∀ w, P (TW.ofFields false 0b10#2 0x18#8 w))
    (rdActual : ∀ w, P (TW.ofFields false 0b10#2 0x1C#8 w)) : P tw := by
  cases h : legal tw with
  | false => exact illegal tw h
  | true =>
    rw [← TW.ofFields_fields tw]
    rcases fields_of_legal h with ⟨h1, h2, h3⟩ | ⟨h1, h2, h3⟩ | ⟨h1, h2, h3⟩ | ⟨h1, h2, h3⟩ | ⟨h1, h2, h3⟩ |
      ⟨h1, h2, h3⟩ | ⟨h1, h2, h3⟩ | ⟨h1, h2, h3⟩ | ⟨h1, h2, h3⟩ | ⟨h1, h2, h3⟩ | ⟨h1, h2, h3⟩ <;>
      rw [h1, h2, h3]
    exacts [command _, dinB _, dinH _, dinW _, wrExpect _, rdStatus _, rdExpect _, rdResult _, rdState _, rdCount _,
      rdActual _]

end Sys2Proof
end

