-- ==== Sys2Proof/Laws/State.lean ====
section
/-!
SUPPORT. One lemma for each field and each named update of the state, true by unfolding, so that no later proof unfolds a record.
-/
namespace Sys2Proof.Machine

/-! ## The reset values (R33) -/

@[simp] theorem Block.reset_state : Block.reset.state = 0xFFFFFFFF#32 := rfl
@[simp] theorem Block.reset_count : Block.reset.count = 0#32 := rfl
@[simp] theorem Block.reset_expect : Block.reset.expect = 0#32 := rfl
@[simp] theorem Block.reset_actual : Block.reset.actual = 0#32 := rfl
@[simp] theorem Block.reset_vdone : Block.reset.vdone = false := rfl
@[simp] theorem Block.reset_matchBit : Block.reset.matchBit = false := rfl
@[simp] theorem Block.reset_mismatchBit : Block.reset.mismatchBit = false := rfl
@[simp] theorem Block.reset_errCmd : Block.reset.errCmd = false := rfl
@[simp] theorem Block.reset_errAcc : Block.reset.errAcc = false := rfl
@[simp] theorem State.reset_block : State.reset.block = Block.reset := rfl
@[simp] theorem State.reset_rdata : State.reset.rdata = none := rfl
@[simp] theorem State.reset_inputs : State.reset.inputs = [] := rfl
@[simp] theorem State.reset_powerCycles : State.reset.powerCycles = 0 := rfl

/-! ## Updates of STATUS (R101 to R103, R181, R182) -/

@[simp] theorem Block.clearOutcome_state (b : Block) : (b.clearOutcome).state = b.state := rfl
@[simp] theorem Block.clearOutcome_count (b : Block) : (b.clearOutcome).count = b.count := rfl
@[simp] theorem Block.clearOutcome_expect (b : Block) : (b.clearOutcome).expect = b.expect := rfl
@[simp] theorem Block.clearOutcome_actual (b : Block) : (b.clearOutcome).actual = b.actual := rfl
@[simp] theorem Block.clearOutcome_vdone (b : Block) : (b.clearOutcome).vdone = false := rfl
@[simp] theorem Block.clearOutcome_matchBit (b : Block) : (b.clearOutcome).matchBit = false := rfl
@[simp] theorem Block.clearOutcome_mismatchBit (b : Block) : (b.clearOutcome).mismatchBit = false := rfl
@[simp] theorem Block.clearOutcome_errCmd (b : Block) : (b.clearOutcome).errCmd = b.errCmd := rfl
@[simp] theorem Block.clearOutcome_errAcc (b : Block) : (b.clearOutcome).errAcc = b.errAcc := rfl

@[simp] theorem Block.setOutcome_state (b : Block) (c : Word) : (b.setOutcome c).state = b.state := rfl
@[simp] theorem Block.setOutcome_count (b : Block) (c : Word) : (b.setOutcome c).count = b.count := rfl
@[simp] theorem Block.setOutcome_expect (b : Block) (c : Word) : (b.setOutcome c).expect = b.expect := rfl
@[simp] theorem Block.setOutcome_actual (b : Block) (c : Word) : (b.setOutcome c).actual = b.actual := rfl
@[simp] theorem Block.setOutcome_vdone (b : Block) (c : Word) : (b.setOutcome c).vdone = true := rfl
@[simp] theorem Block.setOutcome_matchBit (b : Block) (c : Word) : (b.setOutcome c).matchBit = (c == b.expect) := rfl
@[simp] theorem Block.setOutcome_mismatchBit (b : Block) (c : Word) : (b.setOutcome c).mismatchBit = (c != b.expect) := rfl
@[simp] theorem Block.setOutcome_errCmd (b : Block) (c : Word) : (b.setOutcome c).errCmd = b.errCmd := rfl
@[simp] theorem Block.setOutcome_errAcc (b : Block) (c : Word) : (b.setOutcome c).errAcc = b.errAcc := rfl

@[simp] theorem Block.clearErrors_state (b : Block) : (b.clearErrors).state = b.state := rfl
@[simp] theorem Block.clearErrors_count (b : Block) : (b.clearErrors).count = b.count := rfl
@[simp] theorem Block.clearErrors_expect (b : Block) : (b.clearErrors).expect = b.expect := rfl
@[simp] theorem Block.clearErrors_actual (b : Block) : (b.clearErrors).actual = b.actual := rfl
@[simp] theorem Block.clearErrors_vdone (b : Block) : (b.clearErrors).vdone = b.vdone := rfl
@[simp] theorem Block.clearErrors_matchBit (b : Block) : (b.clearErrors).matchBit = b.matchBit := rfl
@[simp] theorem Block.clearErrors_mismatchBit (b : Block) : (b.clearErrors).mismatchBit = b.mismatchBit := rfl
@[simp] theorem Block.clearErrors_errCmd (b : Block) : (b.clearErrors).errCmd = false := rfl
@[simp] theorem Block.clearErrors_errAcc (b : Block) : (b.clearErrors).errAcc = false := rfl

@[simp] theorem Block.setErrorCmd_state (b : Block) : (b.setError .cmd).state = b.state := rfl
@[simp] theorem Block.setErrorCmd_count (b : Block) : (b.setError .cmd).count = b.count := rfl
@[simp] theorem Block.setErrorCmd_expect (b : Block) : (b.setError .cmd).expect = b.expect := rfl
@[simp] theorem Block.setErrorCmd_actual (b : Block) : (b.setError .cmd).actual = b.actual := rfl
@[simp] theorem Block.setErrorCmd_vdone (b : Block) : (b.setError .cmd).vdone = b.vdone := rfl
@[simp] theorem Block.setErrorCmd_matchBit (b : Block) : (b.setError .cmd).matchBit = b.matchBit := rfl
@[simp] theorem Block.setErrorCmd_mismatchBit (b : Block) : (b.setError .cmd).mismatchBit = b.mismatchBit := rfl
@[simp] theorem Block.setErrorCmd_errCmd (b : Block) : (b.setError .cmd).errCmd = true := rfl
@[simp] theorem Block.setErrorCmd_errAcc (b : Block) : (b.setError .cmd).errAcc = b.errAcc := rfl

@[simp] theorem Block.setErrorAcc_state (b : Block) : (b.setError .acc).state = b.state := rfl
@[simp] theorem Block.setErrorAcc_count (b : Block) : (b.setError .acc).count = b.count := rfl
@[simp] theorem Block.setErrorAcc_expect (b : Block) : (b.setError .acc).expect = b.expect := rfl
@[simp] theorem Block.setErrorAcc_actual (b : Block) : (b.setError .acc).actual = b.actual := rfl
@[simp] theorem Block.setErrorAcc_vdone (b : Block) : (b.setError .acc).vdone = b.vdone := rfl
@[simp] theorem Block.setErrorAcc_matchBit (b : Block) : (b.setError .acc).matchBit = b.matchBit := rfl
@[simp] theorem Block.setErrorAcc_mismatchBit (b : Block) : (b.setError .acc).mismatchBit = b.mismatchBit := rfl
@[simp] theorem Block.setErrorAcc_errCmd (b : Block) : (b.setError .acc).errCmd = b.errCmd := rfl
@[simp] theorem Block.setErrorAcc_errAcc (b : Block) : (b.setError .acc).errAcc = true := rfl

/-! ## A DIN write (R120) -/

@[simp] theorem Block.absorbWrite_state (b : Block) (k : Nat) (w : Word) : (b.absorbWrite k w).state = absorb b.state (messageBytes k w) := rfl
@[simp] theorem Block.absorbWrite_count (b : Block) (k : Nat) (w : Word) : (b.absorbWrite k w).count = b.count + BitVec.ofNat 32 k := rfl
@[simp] theorem Block.absorbWrite_expect (b : Block) (k : Nat) (w : Word) : (b.absorbWrite k w).expect = b.expect := rfl
@[simp] theorem Block.absorbWrite_actual (b : Block) (k : Nat) (w : Word) : (b.absorbWrite k w).actual = b.actual := rfl
@[simp] theorem Block.absorbWrite_vdone (b : Block) (k : Nat) (w : Word) : (b.absorbWrite k w).vdone = b.vdone := rfl
@[simp] theorem Block.absorbWrite_matchBit (b : Block) (k : Nat) (w : Word) : (b.absorbWrite k w).matchBit = b.matchBit := rfl
@[simp] theorem Block.absorbWrite_mismatchBit (b : Block) (k : Nat) (w : Word) : (b.absorbWrite k w).mismatchBit = b.mismatchBit := rfl
@[simp] theorem Block.absorbWrite_errCmd (b : Block) (k : Nat) (w : Word) : (b.absorbWrite k w).errCmd = b.errCmd := rfl
@[simp] theorem Block.absorbWrite_errAcc (b : Block) (k : Nat) (w : Word) : (b.absorbWrite k w).errAcc = b.errAcc := rfl

/-! ## Inputs offered to the machine (R45) -/

@[simp] theorem State.offer_block (s : State) (ins : List Input) : (s.offer ins).block = s.block := rfl
@[simp] theorem State.offer_rdata (s : State) (ins : List Input) : (s.offer ins).rdata = s.rdata := rfl
@[simp] theorem State.offer_inputs (s : State) (ins : List Input) : (s.offer ins).inputs = ins ++ s.inputs := rfl
@[simp] theorem State.offer_powerCycles (s : State) (ins : List Input) : (s.offer ins).powerCycles = s.powerCycles := rfl

@[simp] theorem State.offer_nil (s : State) : s.offer [] = s := rfl

@[simp] theorem transactions_nil : transactions [] = [] := rfl

@[simp] theorem transactions_cons (w : TW) (ws : List TW) :
    transactions (w :: ws) = .txn w :: transactions ws := rfl

@[simp] theorem transactions_append (ws vs : List TW) :
    transactions (ws ++ vs) = transactions ws ++ transactions vs := List.map_append

@[simp] theorem transactions_length (ws : List TW) : (transactions ws).length = ws.length :=
  List.length_map ..

end Sys2Proof.Machine
end

