-- ==== Sys2Proof/Laws/Ops.lean ====
section
/-!
SUPPORT. What each shared operation can do, said once: its answer is one next state, written out.
-/
namespace Sys2Proof.Machine

theorem completeWrite_next (b : Block) (s : State) :
    completeWrite b s = .next { s with block := b, rdata := none } := rfl

theorem completeRead_next (v : Word) (s : State) :
    completeRead v s = .next { s with rdata := some v } := rfl

theorem raiseError_cmd_next (s : State) :
    raiseError .cmd false s = .next { s with block := { s.block with errCmd := true }, rdata := none } := rfl

theorem raiseError_acc_next (isRead : Bool) (s : State) :
    raiseError .acc isRead s = .next { s with
      block := { s.block with errAcc := true }
      rdata := if isRead then some 0#32 else none } := rfl

theorem clearErrors_next (s : State) :
    clearErrors s = .next { s with block := { s.block with errCmd := false, errAcc := false }, rdata := none } := rfl

theorem startMessage_next (s : State) :
    startMessage s = .next { s with
      block := { s.block with
        state := 0xFFFFFFFF#32
        count := 0#32
        vdone := false
        matchBit := false
        mismatchBit := false }
      rdata := none } := rfl

theorem verifyMessage_next (s : State) :
    verifyMessage s = .next { s with
      block := { s.block with
        actual := finalize s.block.state
        vdone := true
        matchBit := finalize s.block.state == s.block.expect
        mismatchBit := finalize s.block.state != s.block.expect }
      rdata := none } := rfl

theorem dinWrite_next (k : Nat) (wdata : Word) (s : State) :
    dinWrite k wdata s = .next { s with
      block := { s.block with
        state := absorb s.block.state (messageBytes k wdata)
        count := s.block.count + BitVec.ofNat 32 k }
      rdata := none } := rfl

theorem takeReset_next (s : State) :
    takeReset s = .next { s with block := Block.reset, rdata := none } := rfl

theorem takePowerCycle_next (s : State) :
    takePowerCycle s = .next { s with
      block := Block.ofTuple (Config.powerUpTuple s.powerCycles)
      rdata := none
      powerCycles := s.powerCycles + 1 } := rfl

/-! ## The bytes of a DIN write (R43) -/

@[simp] theorem messageBytes_one (w : Word) : messageBytes 1 w = [w.extractLsb' 0 8] := rfl

@[simp] theorem messageBytes_two (w : Word) :
    messageBytes 2 w = [w.extractLsb' 8 8, w.extractLsb' 0 8] := rfl

@[simp] theorem messageBytes_four (w : Word) :
    messageBytes 4 w = [w.extractLsb' 24 8, w.extractLsb' 16 8, w.extractLsb' 8 8, w.extractLsb' 0 8] := rfl

@[simp] theorem messageBytes_length (k : Nat) (w : Word) : (messageBytes k w).length = k := by
  induction k with
  | zero => rfl
  | succ k ih => simp [messageBytes, ih]

@[simp] theorem halfOfBytes_first (b0 b1 : Byte) : (halfOfBytes b0 b1).extractLsb' 8 8 = b0 := by
  apply BitVec.eq_of_getLsbD_eq
  intro i hi
  simp only [BitVec.getLsbD_extractLsb', halfOfBytes, BitVec.getLsbD_cast, BitVec.getLsbD_append]
  simp [hi]

@[simp] theorem halfOfBytes_second (b0 b1 : Byte) : (halfOfBytes b0 b1).extractLsb' 0 8 = b1 := by
  apply BitVec.eq_of_getLsbD_eq
  intro i hi
  simp only [BitVec.getLsbD_extractLsb', halfOfBytes, BitVec.getLsbD_cast, BitVec.getLsbD_append]
  simp [hi]

/-- A word put together from its bytes has them again. -/
theorem be32_fromBE32 (b0 b1 b2 b3 : Byte) : be32 (fromBE32 b0 b1 b2 b3) = [b0, b1, b2, b3] := by
  simp only [be32, List.cons.injEq, and_true]
  refine ⟨?_, ?_, ?_, ?_⟩ <;>
    (apply BitVec.eq_of_getLsbD_eq
     intro i hi
     simp only [BitVec.getLsbD_extractLsb', fromBE32, BitVec.getLsbD_cast, BitVec.getLsbD_append])
  · rw [if_neg (by omega), if_neg (by omega), if_neg (by omega), show 24 + i - 8 - 8 - 8 = i by omega]; simp [hi]
  · rw [if_neg (by omega), if_neg (by omega), if_pos (by omega), show 16 + i - 8 - 8 = i by omega]; simp [hi]
  · rw [if_neg (by omega), if_pos (by omega), show 8 + i - 8 = i by omega]; simp [hi]
  · rw [if_pos (by omega)]; simp [hi]

/-! ## Bits of STATUS (R27) -/

theorem Block.getLsbD_status (b : Block) (j : Nat) :
    b.status.getLsbD j =
      if j = 0 then b.vdone
      else if j = 1 then b.matchBit
      else if j = 2 then b.mismatchBit
      else if j = 8 then b.errCmd
      else if j = 9 then b.errAcc
      else false := by
  have hbit : ∀ (x : Bool) (i : Nat), (BitVec.ofBool x).getLsbD i = (decide (i = 0) && x) := by
    intro x i
    cases x <;> cases i <;> simp
  simp only [Block.status, BitVec.getLsbD_cast, BitVec.getLsbD_append, hbit, BitVec.getLsbD_zero]
  rcases Nat.lt_or_ge j 10 with h | h
  · interval_cases j <;> simp
  · have h1 : ¬ j < 1 := by omega
    have h2 : ¬ j - 1 < 1 := by omega
    have h3 : ¬ j - 1 - 1 < 1 := by omega
    have h4 : ¬ j - 1 - 1 - 1 < 5 := by omega
    have h5 : ¬ j - 1 - 1 - 1 - 5 < 1 := by omega
    have h6 : j ≠ 0 ∧ j ≠ 1 ∧ j ≠ 2 ∧ j ≠ 8 ∧ j ≠ 9 := by omega
    simp only [h1, h2, h3, h4, h5, h6, if_false]
    by_cases h7 : j - 1 - 1 - 1 - 5 - 1 < 1
    · have h8 : j = 9 := by omega
      omega
    · simp [h7]

end Sys2Proof.Machine
end

