-- ==== Sys2Proof/Laws/PerInstr.lean ====
section
/-!
SUPPORT. Two families of facts about every instruction as syntax: its word is legal exactly when it is no illegal access (R147, R148), and its word matches its own
row of the opcode table (R65). One lemma a constructor.
-/

/-- The word of a well-formed instruction is legal exactly when the instruction's row is one of rows 1 to 15. -/
def Sys2Proof.Laws.LegalWord.Statement (i : Sys2Proof.Instr) : Prop :=
  i.wf = true → Sys2Proof.legal (Sys2Proof.encode i) = decide (i.priority ≤ 15)

/-- Some row of the opcode table has the instruction's priority and matches its word. -/
def Sys2Proof.Laws.TableRow.Statement (i : Sys2Proof.Instr) : Prop :=
  ∃ r ∈ Sys2Proof.opcodeTable, r.priority = i.priority ∧ r.matchesWord (Sys2Proof.encode i) = true

namespace Sys2Proof.Laws

/-! ## What the two families rest on -/

/-- Legality does not look at WDATA. -/
theorem legal_ofFields (we : Bool) (size : SizeCode) (addr : Offset) (v w : Word) :
    legal (TW.ofFields we size addr v) = legal (TW.ofFields we size addr w) := by
  simp [legal]

/-- A row with operands matches every word of its fields. -/
theorem matches_operandRow (p : Nat) (value : TW) (we : Bool) (size : SizeCode) (addr : Offset) (v : Word)
    (h : TW.ofFields we size addr 0#32 = value) :
    OpcodeRow.matchesWord ⟨p, value, 0x7FF00000000#43⟩ (TW.ofFields we size addr v) = true := by
  rw [OpcodeRow.matchesWord, TW.and_operandMask]
  simp [h]

/-! ## Legal words -/

theorem LegalWord.cmdNop : LegalWord.Statement .cmdNop := fun _ => by decide
theorem LegalWord.cmdInit : LegalWord.Statement .cmdInit := fun _ => by decide
theorem LegalWord.cmdVerify : LegalWord.Statement .cmdVerify := fun _ => by decide
theorem LegalWord.cmdClrerr : LegalWord.Statement .cmdClrerr := fun _ => by decide
theorem LegalWord.cmdRsvd (c : BitVec 32) : LegalWord.Statement (.cmdRsvd c) := fun _ =>
  (legal_ofFields _ _ _ c 0#32).trans rfl
theorem LegalWord.dinB (x : BitVec 24) (b : BitVec 8) : LegalWord.Statement (.dinB x b) := fun _ =>
  (legal_ofFields _ _ _ _ 0#32).trans rfl
theorem LegalWord.dinH (x : BitVec 16) (h : BitVec 16) : LegalWord.Statement (.dinH x h) := fun _ =>
  (legal_ofFields _ _ _ _ 0#32).trans rfl
theorem LegalWord.dinW (w : BitVec 32) : LegalWord.Statement (.dinW w) := fun _ =>
  (legal_ofFields _ _ _ w 0#32).trans rfl
theorem LegalWord.wrExpect (v : BitVec 32) : LegalWord.Statement (.wrExpect v) := fun _ =>
  (legal_ofFields _ _ _ v 0#32).trans rfl
theorem LegalWord.rdStatus (x : BitVec 32) : LegalWord.Statement (.rdStatus x) := fun _ =>
  (legal_ofFields _ _ _ x 0#32).trans rfl
theorem LegalWord.rdExpect (x : BitVec 32) : LegalWord.Statement (.rdExpect x) := fun _ =>
  (legal_ofFields _ _ _ x 0#32).trans rfl
theorem LegalWord.rdResult (x : BitVec 32) : LegalWord.Statement (.rdResult x) := fun _ =>
  (legal_ofFields _ _ _ x 0#32).trans rfl
theorem LegalWord.rdState (x : BitVec 32) : LegalWord.Statement (.rdState x) := fun _ =>
  (legal_ofFields _ _ _ x 0#32).trans rfl
theorem LegalWord.rdCount (x : BitVec 32) : LegalWord.Statement (.rdCount x) := fun _ =>
  (legal_ofFields _ _ _ x 0#32).trans rfl
theorem LegalWord.rdActual (x : BitVec 32) : LegalWord.Statement (.rdActual x) := fun _ =>
  (legal_ofFields _ _ _ x 0#32).trans rfl
theorem LegalWord.accIllegal (a : BitVec 43) : LegalWord.Statement (.accIllegal a) := fun h => by
  simpa [Instr.wf, encode, Instr.priority] using h

/-! ## Rows of the table -/

theorem TableRow.cmdNop : TableRow.Statement .cmdNop := ⟨_, .head _, rfl, by decide⟩
theorem TableRow.cmdInit : TableRow.Statement .cmdInit := ⟨_, .tail _ (.head _), rfl, by decide⟩
theorem TableRow.cmdVerify : TableRow.Statement .cmdVerify := ⟨_, .tail _ (.tail _ (.head _)), rfl, by decide⟩
theorem TableRow.cmdClrerr : TableRow.Statement .cmdClrerr :=
  ⟨⟨4, 0x60000000003#43, 0x7FFFFFFFFFF#43⟩, by decide, rfl, by decide⟩
theorem TableRow.cmdRsvd (c : BitVec 32) : TableRow.Statement (.cmdRsvd c) :=
  ⟨⟨5, 0x60000000000#43, 0x7FF00000000#43⟩, by decide, rfl, matches_operandRow _ _ _ _ _ _ (by decide)⟩
theorem TableRow.dinB (x : BitVec 24) (b : BitVec 8) : TableRow.Statement (.dinB x b) :=
  ⟨⟨6, 0x40800000000#43, 0x7FF00000000#43⟩, by decide, rfl, matches_operandRow _ _ _ _ _ _ (by decide)⟩
theorem TableRow.dinH (x : BitVec 16) (h : BitVec 16) : TableRow.Statement (.dinH x h) :=
  ⟨⟨7, 0x50800000000#43, 0x7FF00000000#43⟩, by decide, rfl, matches_operandRow _ _ _ _ _ _ (by decide)⟩
theorem TableRow.dinW (w : BitVec 32) : TableRow.Statement (.dinW w) :=
  ⟨⟨8, 0x60800000000#43, 0x7FF00000000#43⟩, by decide, rfl, matches_operandRow _ _ _ _ _ _ (by decide)⟩
theorem TableRow.wrExpect (v : BitVec 32) : TableRow.Statement (.wrExpect v) :=
  ⟨⟨9, 0x60C00000000#43, 0x7FF00000000#43⟩, by decide, rfl, matches_operandRow _ _ _ _ _ _ (by decide)⟩
theorem TableRow.rdStatus (x : BitVec 32) : TableRow.Statement (.rdStatus x) :=
  ⟨⟨10, 0x20400000000#43, 0x7FF00000000#43⟩, by decide, rfl, matches_operandRow _ _ _ _ _ _ (by decide)⟩
theorem TableRow.rdExpect (x : BitVec 32) : TableRow.Statement (.rdExpect x) :=
  ⟨⟨11, 0x20C00000000#43, 0x7FF00000000#43⟩, by decide, rfl, matches_operandRow _ _ _ _ _ _ (by decide)⟩
theorem TableRow.rdResult (x : BitVec 32) : TableRow.Statement (.rdResult x) :=
  ⟨⟨12, 0x21000000000#43, 0x7FF00000000#43⟩, by decide, rfl, matches_operandRow _ _ _ _ _ _ (by decide)⟩
theorem TableRow.rdState (x : BitVec 32) : TableRow.Statement (.rdState x) :=
  ⟨⟨13, 0x21400000000#43, 0x7FF00000000#43⟩, by decide, rfl, matches_operandRow _ _ _ _ _ _ (by decide)⟩
theorem TableRow.rdCount (x : BitVec 32) : TableRow.Statement (.rdCount x) :=
  ⟨⟨14, 0x21800000000#43, 0x7FF00000000#43⟩, by decide, rfl, matches_operandRow _ _ _ _ _ _ (by decide)⟩
theorem TableRow.rdActual (x : BitVec 32) : TableRow.Statement (.rdActual x) :=
  ⟨⟨15, 0x21C00000000#43, 0x7FF00000000#43⟩, by decide, rfl, matches_operandRow _ _ _ _ _ _ (by decide)⟩
theorem TableRow.accIllegal (a : BitVec 43) : TableRow.Statement (.accIllegal a) :=
  ⟨⟨16, 0x00000000000#43, 0x00000000000#43⟩, by decide, rfl, by simp [OpcodeRow.matchesWord]⟩

end Sys2Proof.Laws
end

