-- ==== Sys2Proof/Laws/Run.lean ====
section
/-!
SUPPORT. What a step does, said once as a function of the block: `served`. Serving a list of inputs is folding `served` over it, so a claim
about a sequence is an induction over its list.
-/
namespace Sys2Proof.Machine

/-! ## A transaction as a function of the block -/

/-- The state in which nothing but the block is of interest. -/
def State.ofBlock (b : Block) : State := { block := b, rdata := none, inputs := [], powerCycles := 0 }

/-- The block an instruction leaves. -/
def blockAfter (i : Instr) (b : Block) : Block :=
  match exec i (State.ofBlock b) with
  | .next t => t.block
  | .fault _ => b
  | .refused _ => b

/-- What an instruction returns on RDATA. -/
def rdataAfter (i : Instr) (b : Block) : Option Word :=
  match exec i (State.ofBlock b) with
  | .next t => t.rdata
  | .fault _ => none
  | .refused _ => none

/-- An instruction's whole effect: the block and RDATA, each a function of the block before; the model's own fields stay. -/
theorem exec_eq_next (i : Instr) (s : State) :
    exec i s = .next { s with block := blockAfter i s.block, rdata := rdataAfter i s.block } := by
  cases i <;> rfl

/-- If an instruction answers a next state, it is the one of `exec_eq_next`. -/
theorem exec_next_inv {i : Instr} {s t : State} (h : exec i s = .next t) :
    t = { s with block := blockAfter i s.block, rdata := rdataAfter i s.block } := by
  rw [exec_eq_next] at h
  injection h with h
  exact h.symm

/-! ## One input, served -/

/-- The state after one input has been served, the waiting inputs untouched. -/
def served (s : State) : Input → State
  | .txn tw => { s with block := blockAfter (decode tw) s.block, rdata := rdataAfter (decode tw) s.block }
  | .rst => { s with block := Block.reset, rdata := none }
  | .powerCycle =>
    { s with
      block := Block.ofTuple (Config.powerUpTuple s.powerCycles)
      rdata := none
      powerCycles := s.powerCycles + 1 }

@[simp] theorem served_inputs (s : State) (x : Input) : (served s x).inputs = s.inputs := by
  cases x <;> rfl

theorem served_offer (s : State) (x : Input) (ins : List Input) :
    served (s.offer ins) x = (served s x).offer ins := by
  cases x <;> rfl

/-- A step with an input waiting: the oldest is served. -/
theorem step_cons {s : State} {x : Input} {rest : List Input} (h : s.inputs = x :: rest) :
    step s = .next (served { s with inputs := rest } x) := by
  rw [step, h]
  cases x with
  | txn tw => exact exec_eq_next _ _
  | rst => rfl
  | powerCycle => rfl

/-- A step with no input waiting. -/
theorem step_nil {s : State} (h : s.inputs = []) : step s = .next s := by
  rw [step, h]

theorem step_offer_cons (s : State) (x : Input) (ins : List Input) :
    step (s.offer (x :: ins)) = .next ((served s x).offer ins) := by
  rw [step_cons (x := x) (rest := ins ++ s.inputs) rfl, ← served_offer]
  rfl

/-! ## Lists of inputs -/

/-- Serving a list of inputs is folding `served` over it. -/
theorem serve_eq_foldl (s : State) (ins : List Input) : serve s ins = .next (ins.foldl served s) := by
  induction ins generalizing s with
  | nil => rfl
  | cons x xs ih =>
    rw [serve, List.length_cons, run, step_offer_cons]
    exact ih (served s x)

/-- What the host reads while a list of inputs is served. -/
theorem answers_cons (s : State) (x : Input) (ins : List Input) :
    answers s (x :: ins) = (served s x).rdata :: answers (served s x) ins := by
  rw [answers, List.length_cons, observe, step_offer_cons]
  rfl

@[simp] theorem answers_nil (s : State) : answers s [] = [] := rfl

/-- One step of the host's own iteration, of any machine. -/
theorem hostRun_succ (M : Host.Core) (n : Nat) (s : M.State) :
    M.run (n + 1) s = match M.step s with
      | .next t => M.run n t
      | .fault r => .fault r
      | .refused r => .refused r := by
  cases hs : M.step s <;> simp [Host.Core.run, hs]

/-- The host's own iteration of the machine is `run`. -/
theorem core_run_eq_run (n : Nat) (s : State) : Host.Core.run Sys2Proof.core n s = run n s := by
  induction n generalizing s with
  | zero => rfl
  | succ n ih =>
    have hstep : Sys2Proof.core.step s = step s := rfl
    refine (hostRun_succ Sys2Proof.core n s).trans ?_
    rw [hstep, run]
    cases step s with
    | next t => exact ih t
    | fault r => rfl
    | refused r => rfl

end Sys2Proof.Machine
end

