-- ==== Sys2Proof/Tests/Slice0.lean ====
section
/-!
SUPPORT. Tests whose expected results come from the spec's own vectors (95_test_vectors.md, cited by id) or its encoding tables (30_encoding.md), and
for every statement with hypotheses a theorem `witness_…` that shows values meeting them.
-/
namespace Sys2Proof.Tests
open Sys2Proof Sys2Proof.Machine

/-! ## WellFormed: an ill-formed term for each check -/

theorem test_reserved_command_0_ill_formed : (Instr.cmdRsvd 0#32).wf = false := by decide
theorem test_reserved_command_1_ill_formed : (Instr.cmdRsvd 1#32).wf = false := by decide
theorem test_reserved_command_2_ill_formed : (Instr.cmdRsvd 2#32).wf = false := by decide
theorem test_reserved_command_3_ill_formed : (Instr.cmdRsvd 3#32).wf = false := by decide
/-- The word of RD STATUS is legal, so it is no illegal access (R147). -/
theorem test_legal_word_ill_formed : (Instr.accIllegal 0x20400000000#43).wf = false := by decide

/-- A line of each form that R68 does not allow: RD of a register that is not in its list, WR of one that is not in its own. -/
theorem test_lines_ill_formed :
    (AsmLine.rd .ctrl).wf = false ∧ (AsmLine.rd .din).wf = false ∧
    (AsmLine.wr .status 0#32).wf = false ∧ (AsmLine.wr .actual 0#32).wf = false := by decide

/-! ## Decoding: for every constructor a word written out from R61 and R66, WE SIZE ADDR WDATA -/

/-- WE 1, SIZE 10, ADDR 00000000, WDATA 0. -/
theorem test_decode_nop : decodeTableWord 48 0b11000000000_00000000000000000000000000000000 = some .cmdNop := by decide
theorem test_decode_init : decodeTableWord 48 0b11000000000_00000000000000000000000000000001 = some .cmdInit := by decide
theorem test_decode_verify : decodeTableWord 48 0b11000000000_00000000000000000000000000000010 = some .cmdVerify := by decide
theorem test_decode_clrerr : decodeTableWord 48 0b11000000000_00000000000000000000000000000011 = some .cmdClrerr := by decide
theorem test_decode_rsvd :
    decodeTableWord 48 0b11000000000_10000000000000000000000000000001 = some (.cmdRsvd 0x80000001#32) := by decide
/-- WE 1, SIZE 00, ADDR 00001000: bits 31:8 are ignored, bits 7:0 the byte. -/
theorem test_decode_dinB :
    decodeTableWord 48 0b10000001000_10100000000000000000000101001001 = some (.dinB 0xA00001#24 0x49#8) := by decide
theorem test_decode_dinH :
    decodeTableWord 48 0b10100001000_10100000000000010100100101000101 = some (.dinH 0xA001#16 0x4945#16) := by decide
theorem test_decode_dinW :
    decodeTableWord 48 0b11000001000_01001001010001010100111001000100 = some (.dinW 0x49454E44#32) := by decide
theorem test_decode_wrExpect :
    decodeTableWord 48 0b11000001100_10101110010000100110000010000010 = some (.wrExpect 0xAE426082#32) := by decide
/-- WE 0, SIZE 10, ADDR 00000100; WDATA is ignored. -/
theorem test_decode_rdStatus :
    decodeTableWord 48 0b01000000100_10000000000000000000000000000001 = some (.rdStatus 0x80000001#32) := by decide
theorem test_decode_rdExpect :
    decodeTableWord 48 0b01000001100_00000000000000000000000000000000 = some (.rdExpect 0#32) := by decide
theorem test_decode_rdResult :
    decodeTableWord 48 0b01000010000_00000000000000000000000000000000 = some (.rdResult 0#32) := by decide
theorem test_decode_rdState :
    decodeTableWord 48 0b01000010100_00000000000000000000000000000000 = some (.rdState 0#32) := by decide
theorem test_decode_rdCount :
    decodeTableWord 48 0b01000011000_00000000000000000000000000000000 = some (.rdCount 0#32) := by decide
theorem test_decode_rdActual :
    decodeTableWord 48 0b01000011100_00000000000000000000000000000000 = some (.rdActual 0#32) := by decide
/-- A 4-byte read of 0x05: misaligned. -/
theorem test_decode_illegal :
    decodeTableWord 48 0b01000000101_00000000000000000000000000000000 = some (.accIllegal 0x20500000000#43) := by decide
/-- Bit 43 is no signal of the port. -/
theorem test_decode_rejects_43_bits :
    decodeTableWord 48 0x80000000000 = none ∧ decodeNat 0x80000000000 = .error .notATransactionWord := by decide

/-! ## One step each (95_test_vectors.md section 2) -/

/-- A block from its registers and its STATUS bits ERR_ACC, ERR_CMD, MISMATCH, MATCH, VDONE. -/
def blockOf (state count expect actual : Word) (errAcc errCmd mismatchBit matchBit vdone : Bool) : Block where
  state := state
  count := count
  expect := expect
  actual := actual
  vdone := vdone
  matchBit := matchBit
  mismatchBit := mismatchBit
  errCmd := errCmd
  errAcc := errAcc

/-- The block and RDATA after one step that runs the word. -/
def stepWord (b : Block) (tw : Nat) : Option (Block × Option Word) :=
  match step ((State.ofBlock b).withFetchWord 48 tw) with
  | .next t => some (t.block, t.rdata)
  | .fault _ => none
  | .refused _ => none

/-- The block of vector K2 before its VERIFY: "IEND" absorbed, its CRC in EXPECT. -/
def afterIEND : Block := blockOf 0x51BD9F7D#32 4#32 0xAE426082#32 0#32 false false false false false

/-- The block of vector K2 after its VERIFY. -/
def afterK2 : Block := blockOf 0x51BD9F7D#32 4#32 0xAE426082#32 0xAE426082#32 false false false true true

/-- K9. -/
theorem test_nop : stepWord afterK2 0x60000000000 = some (afterK2, none) := by decide
/-- K1. -/
theorem test_init : stepWord afterK2 0x60000000001 =
    some (blockOf 0xFFFFFFFF#32 0#32 0xAE426082#32 0xAE426082#32 false false false false false, none) := by decide
/-- K2. -/
theorem test_verify_match : stepWord afterIEND 0x60000000002 = some (afterK2, none) := by decide
/-- K3. -/
theorem test_verify_mismatch : stepWord (blockOf 0x51BD9F7D#32 4#32 0xAE426083#32 0#32 false false false false false) 0x60000000002 =
    some (blockOf 0x51BD9F7D#32 4#32 0xAE426083#32 0xAE426082#32 false false true false true, none) := by decide
/-- K6. -/
theorem test_clrerr : stepWord (blockOf 0x51BD9F7D#32 4#32 0xAE426082#32 0xAE426082#32 true true false true true) 0x60000000003 =
    some (afterK2, none) := by decide
/-- K8: 0x101 is not INIT. -/
theorem test_reserved_command : stepWord Block.reset 0x60000000101 =
    some (blockOf 0xFFFFFFFF#32 0#32 0#32 0#32 false true false false false, none) := by decide
/-- DI2: `WDATA[31:8]` has no effect. -/
theorem test_dinB_ignores_high_bits : stepWord Block.reset 0x408FFFFFF49 =
    some (blockOf 0x22FDE946#32 1#32 0#32 0#32 false false false false false, none) := by decide +kernel
/-- DI8: COUNT wraps. -/
theorem test_dinB_count_wraps : stepWord (blockOf 0xFFFFFFFF#32 0xFFFFFFFF#32 0#32 0#32 false false false false false) 0x40800000041 =
    some (blockOf 0x2C266174#32 0#32 0#32 0#32 false false false false false, none) := by decide +kernel
/-- DI3: the more significant byte first. -/
theorem test_dinH_byte_order : stepWord Block.reset 0x50800004945 =
    some (blockOf 0x992BAC53#32 2#32 0#32 0#32 false false false false false, none) := by decide +kernel
/-- DI5. -/
theorem test_dinW_byte_order : stepWord Block.reset 0x60849454E44 =
    some (blockOf 0x51BD9F7D#32 4#32 0#32 0#32 false false false false false, none) := by decide +kernel
/-- DI9: COUNT wraps by four. -/
theorem test_dinW_count_wraps : stepWord (blockOf 0xFFFFFFFF#32 0xFFFFFFFE#32 0#32 0#32 false false false false false) 0x60800000000 =
    some (blockOf 0xDEBB20E3#32 2#32 0#32 0#32 false false false false false, none) := by decide +kernel
/-- K5: STATUS and ACTUAL stay. -/
theorem test_wrExpect : stepWord afterK2 0x60C00000000 =
    some (blockOf 0x51BD9F7D#32 4#32 0#32 0xAE426082#32 false false false true true, none) := by decide
/-- RA13. -/
theorem test_rdStatus : stepWord { afterK2 with errAcc := true } 0x20400000000 =
    some ({ afterK2 with errAcc := true }, some 0x00000203#32) := by decide
/-- P2: RD EXPECT. -/
theorem test_rdExpect : stepWord (blockOf 0x26A84206#32 9#32 0xAE508D6F#32 0xD957BDF9#32 false false true false true) 0x20C00000000 =
    some (blockOf 0x26A84206#32 9#32 0xAE508D6F#32 0xD957BDF9#32 false false true false true, some 0xAE508D6F#32) := by decide
/-- P1: RD RESULT. -/
theorem test_rdResult : stepWord afterIEND 0x21000000000 = some (afterIEND, some 0xAE426082#32) := by decide
/-- P1: RD STATE. -/
theorem test_rdState : stepWord afterIEND 0x21400000000 = some (afterIEND, some 0x51BD9F7D#32) := by decide
/-- P1: RD COUNT. -/
theorem test_rdCount : stepWord afterIEND 0x21800000000 = some (afterIEND, some 4#32) := by decide
/-- P2: RD ACTUAL after a mismatch, where ACTUAL and EXPECT differ. -/
theorem test_rdActual : stepWord (blockOf 0x26A84206#32 9#32 0xAE508D6F#32 0xD957BDF9#32 false false true false true) 0x21C00000000 =
    some (blockOf 0x26A84206#32 9#32 0xAE508D6F#32 0xD957BDF9#32 false false true false true, some 0xD957BDF9#32) := by decide
/-- K10: a 1-byte write of 1 to CTRL is not INIT and raises no ERR_CMD. -/
theorem test_illegal_write : stepWord afterIEND 0x40000000001 = some ({ afterIEND with errAcc := true }, none) := by decide
/-- RA7: a misaligned read returns 0. -/
theorem test_illegal_read : stepWord afterIEND 0x20500000000 = some ({ afterIEND with errAcc := true }, some 0#32) := by decide

/-! ## The CRC function (section 2.1) and the chunk layout (section 2.5) -/

/-- V13. -/
theorem test_crc_1234567890 :
    crc32 [0x31#8, 0x32#8, 0x33#8, 0x34#8, 0x35#8, 0x36#8, 0x37#8, 0x38#8, 0x39#8, 0x30#8] = 0x261DAEE5#32 := by decide +kernel
/-- The table entries the spec lists. -/
theorem test_table_entries : crcTable 0x01#8 = 0x77073096#32 ∧ crcTable 0x03#8 = 0x990951BA#32 ∧ crcTable 0xFF#8 = 0x2D02EF8D#32 := by
  decide +kernel
/-- The four bytes "ruSt". -/
def ruSt : List Byte := [0x72#8, 0x75#8, 0x53#8, 0x74#8]
/-- X5b: the record of "ruSt" with the data "a". -/
theorem test_chunk_record : chunkRecord ruSt [0x61#8] (crc32 (chunkMessage ruSt [0x61#8])) =
    [0#8, 0#8, 0#8, 1#8, 0x72#8, 0x75#8, 0x53#8, 0x74#8, 0x61#8, 0x06#8, 0xCD#8, 0x69#8, 0xC9#8] := by decide +kernel
/-- X4: the record of IEND, read back. -/
theorem test_record_fields :
    recordMessage [0#8, 0#8, 0#8, 0#8, 0x49#8, 0x45#8, 0x4E#8, 0x44#8, 0xAE#8, 0x42#8, 0x60#8, 0x82#8] = [0x49#8, 0x45#8, 0x4E#8, 0x44#8] ∧
    recordStored [0#8, 0#8, 0#8, 0#8, 0x49#8, 0x45#8, 0x4E#8, 0x44#8, 0xAE#8, 0x42#8, 0x60#8, 0x82#8] = 0xAE426082#32 := by decide

/-- 40_crc_function.md R94's residue and the big-endian append of R169, one CRC in both byte orders: the hand-computed ruling of log entry 17. -/
theorem test_big_endian_append :
    absorb initialValue [0x49#8, 0x45#8, 0x4E#8, 0x44#8, 0xAE#8, 0x42#8, 0x60#8, 0x82#8] = 0x9AFC8828#32 ∧
    absorb initialValue [0x49#8, 0x45#8, 0x4E#8, 0x44#8, 0x82#8, 0x60#8, 0x42#8, 0xAE#8] = residue := by decide +kernel
/-- The other message of R169, by the same ruling. -/
theorem test_big_endian_append_check_message :
    absorb initialValue [0x31#8, 0x32#8, 0x33#8, 0x34#8, 0x35#8, 0x36#8, 0x37#8, 0x38#8, 0x39#8, 0xCB#8, 0xF4#8, 0x39#8, 0x26#8] = 0xC3368BD3#32 := by
  decide +kernel

/-! ## The assembler (R68 to R70, section 3) -/

/-- P3: `RD.X @0x04` and `WR.H @0x00, 1`. -/
theorem test_raw_lines :
    (readLine "RD.X @0x04   ; SIZE 0b11".toList).map assemble = some [0x30400000000#43] ∧
    (readLine "WR.H @0x00, 1".toList).map assemble = some [0x50000000001#43] := by decide +kernel
/-- P2: the text lines of its chunk. -/
theorem test_crcchk_text : (readLine "CRCCHK \"ruSthello\", 0xAE508D6F".toList).map assemble =
    some [0x60000000001#43, 0x60872755374#43, 0x60868656C6C#43, 0x4080000006F#43, 0x60CAE508D6F#43, 0x60000000002#43, 0x20400000000#43,
      0x21C00000000#43] := by decide +kernel
/-- P1: bytes listed one by one. -/
theorem test_crcgen_bytes : (readLine "CRCGEN 0x49, 69, 0x4e, 0x44".toList).map assemble =
    some [0x60000000001#43, 0x60849454E44#43, 0x21000000000#43] := by decide +kernel
/-- P3: a line outside R68's list that the spec's own program spells. -/
theorem test_write_of_read_only_register : (readLine "WR   STATE, 5".toList).map assemble = some [0x61400000005#43] := by decide +kernel
/-- Lines R68 does not allow: a read of CTRL, no register, an immediate too wide. -/
theorem test_bad_lines :
    readLine "RD CTRL".toList = none ∧ readLine "WR DATA, 5".toList = none ∧ readLine "WR.B DIN, 256".toList = none := by decide +kernel
/-- R68: `TW=0x` and 11 digits. -/
theorem test_show_word : showWord 0x00900000000#43 = "TW=0x00900000000".toList := by decide +kernel

/-! ## Witnesses: values that meet the hypotheses of each statement, and each clause of it -/

/-- Every form at a boundary of its operands. -/
theorem witness_DecodeInvertsEncode :
    [Instr.cmdNop, .cmdInit, .cmdVerify, .cmdClrerr, .cmdRsvd 4#32, .cmdRsvd 0xFFFFFFFF#32, .dinB 0xFFFFFF#24 0#8, .dinH 0#16 0xFFFF#16,
      .dinW 0xFFFFFFFF#32, .wrExpect 0#32, .rdStatus 0xFFFFFFFF#32, .rdExpect 0#32, .rdResult 0#32, .rdState 0#32, .rdCount 0#32,
      .rdActual 0#32, .accIllegal 0#43, .accIllegal 0x7FFFFFFFFFF#43].all (·.wf) = true := by decide

theorem witness_UnacceptedCombinationsRaiseErrAcc :
    accepted 0x40000000001#43 = false ∧ accepted 0x20800000000#43 = false ∧ accepted 0x408FFFFFF49#43 = true := by decide

/-- Words that differ in ignored bits alone: a byte write, a read, and a write of the reserved size. -/
theorem witness_IgnoredWdataBitsHaveNoEffect :
    [(0x408FFFFFF49#43, 0x40800000049#43), (0x20400000000#43, 0x204FFFFFFFF#43), (0x70800000000#43, 0x708FFFFFFFF#43)].all (fun p : TW × TW =>
      p.1 != p.2 && TW.we p.1 == TW.we p.2 && TW.size p.1 == TW.size p.2 && TW.addr p.1 == TW.addr p.2 &&
      (!TW.we p.1 || match sizeBytes (TW.size p.1) with
        | some k => (TW.wdata p.1).extractLsb' 0 (8 * k) == (TW.wdata p.2).extractLsb' 0 (8 * k)
        | none => true)) = true := by decide

theorem witness_RawLinesSpellEveryIllegalAccess :
    legal 0#43 = false ∧ legal 0x7FFFFFFFFFF#43 = false ∧ legal 0x40000000001#43 = false := by decide

/-- A state with one input waiting. -/
def waiting (x : Input) : State := { State.ofBlock afterK2 with inputs := [x] }

theorem witness_StepServesTheOldestInput :
    (waiting (.txn 0x60000000001#43)).inputs = .txn 0x60000000001#43 :: [] ∧
    (Instr.cmdRsvd 4#32).wf = true ∧ (waiting (.txn (encode (.cmdRsvd 4#32)))).inputs = .txn (encode (.cmdRsvd 4#32)) :: [] ∧
    (waiting .rst).inputs = .rst :: [] ∧ (waiting .powerCycle).inputs = .powerCycle :: [] ∧ State.reset.inputs = [] := by decide

theorem witness_EveryTransactionCompletes :
    (waiting (.txn 0x20500000000#43)).inputs = .txn 0x20500000000#43 :: [] ∧ isMisuse 0x20500000000#43 = true ∧
    isMisuse 0x60000000004#43 = true := by decide

theorem witness_ResetEventSetsEveryRegister :
    (waiting .rst).inputs = .rst :: [] ∧ (waiting .rst).block ≠ Block.reset := by decide

/-- A step from a state of the invariant: VERIFY, and a reset event. -/
theorem witness_StepKeepsStatusInvariant :
    (waiting (.txn 0x60000000002#43)).Inv ∧ step (waiting (.txn 0x60000000002#43)) = .next (State.ofBlock afterK2) ∧
    (waiting .rst).Inv ∧ step (waiting .rst) = .next State.reset := by
  exact ⟨⟨by decide, by decide⟩, rfl, ⟨by decide, by decide⟩, rfl⟩

theorem witness_StatusInvariantHoldsAfterReset :
    (waiting .rst).powerStays = true ∧ (waiting .rst).inputs = .rst :: [] ∧ step (waiting .rst) = .next State.reset :=
  ⟨by decide, rfl, rfl⟩

theorem witness_InitStartsANewMessage : exec .cmdInit (State.ofBlock afterK2) =
    .next (State.ofBlock (blockOf 0xFFFFFFFF#32 0#32 0xAE426082#32 0xAE426082#32 false false false false false)) := rfl

theorem witness_VerifyComparesWithExpect : exec .cmdVerify (State.ofBlock afterIEND) = .next (State.ofBlock afterK2) := rfl

/-- NOP is a write that leaves the block of every state. -/
theorem witness_NopIsTheOnlyWriteWithNoEffect :
    TW.we 0x60000000000#43 = true ∧ ∀ s t : State, exec (decode 0x60000000000#43) s = .next t → t.block = s.block :=
  ⟨by decide, fun s t h => by
    have hd : decode 0x60000000000#43 = .cmdNop := by decide
    rw [hd] at h
    injection h with h
    rw [← h]⟩

theorem witness_WriteExpectSetsExpect :
    TW.we 0x40C00000001#43 = true ∧ TW.addr 0x40C00000001#43 = 0x0C#8 ∧ TW.size 0x40C00000001#43 ≠ 0b10#2 := by decide

theorem witness_ReservedCommandSetsErrCmd :
    [4#32, 0xFFFFFFFF#32].all (fun c : Word => c != 0#32 && c != 1#32 && c != 2#32 && c != 3#32) = true := by decide

/-- One word for each clause, at its boundary. -/
theorem witness_OffsetsWithoutARegisterRaiseErrAcc :
    (TW.addr 0x20100000000#43).extractLsb' 0 2 ≠ 0b00#2 ∧ (TW.addr 0x21F00000000#43).extractLsb' 0 2 ≠ 0b00#2 ∧
    0x1C#8 < TW.addr 0x22000000000#43 ∧ 0x1C#8 < TW.addr 0x2FC00000000#43 ∧
    (TW.addr 0x20800000000#43 = 0x08#8 ∧ TW.we 0x20800000000#43 = false) ∧
    (TW.addr 0x70800000049#43 = 0x08#8 ∧ TW.size 0x70800000049#43 = 0b11#2) := by decide

/-- The state with both error bits set as well. -/
def erring : State := State.ofBlock { afterK2 with errCmd := true, errAcc := true }

/-- VERIFY, INIT, a reserved command, an illegal access, CLRERR, a DIN write and a legal read, each of which answers a next state. -/
theorem witness_FlagsChangeOnlyWhereListed :
    (∃ t, exec .cmdVerify erring = .next t) ∧ (∃ t, exec .cmdInit erring = .next t) ∧ (∃ t, exec (.cmdRsvd 4#32) erring = .next t) ∧
    (∃ t, exec (.accIllegal 0#43) erring = .next t) ∧ (∃ t, exec .cmdClrerr erring = .next t) ∧ (∃ t, exec (.dinW 0#32) erring = .next t) ∧
    (∃ t, exec (.rdStatus 0#32) erring = .next t) ∧ 10 ≤ (Instr.rdStatus 0#32).priority ∧ (Instr.rdActual 0#32).priority ≤ 15 :=
  ⟨⟨_, rfl⟩, ⟨_, rfl⟩, ⟨_, rfl⟩, ⟨_, rfl⟩, ⟨_, rfl⟩, ⟨_, rfl⟩, ⟨_, rfl⟩, by decide, by decide⟩

theorem witness_RegistersHaveOnlyTheirWriters :
    (∃ t, exec .cmdInit (State.ofBlock afterK2) = .next t ∧ t.block.state ≠ afterK2.state ∧ t.block.count ≠ afterK2.count) ∧
    (∃ t, exec (.wrExpect 0#32) (State.ofBlock afterK2) = .next t ∧ t.block.expect ≠ afterK2.expect) ∧
    (∃ t, exec .cmdVerify (State.ofBlock afterIEND) = .next t ∧ t.block.actual ≠ afterIEND.actual) :=
  ⟨⟨_, rfl, by decide, by decide⟩, ⟨_, rfl, by decide⟩, ⟨_, rfl, by decide⟩⟩

/-- A DIN write, another write, and a legal read. -/
theorem witness_OnlyDinWritesAreNotIdempotent :
    (∃ t, exec (decode 0x40800000049#43) State.reset = .next t) ∧
    (TW.we 0x40800000049#43 = true ∧ TW.addr 0x40800000049#43 = 0x08#8 ∧ TW.size 0x40800000049#43 ≠ 0b11#2) ∧
    (∃ t, exec (decode 0x70800000049#43) State.reset = .next t) ∧ ¬ (TW.size 0x70800000049#43 ≠ 0b11#2) ∧
    (∃ t, exec (decode 0x20400000000#43) State.reset = .next t) ∧ TW.we 0x20400000000#43 = false ∧ legal 0x20400000000#43 = true :=
  ⟨⟨_, rfl⟩, by decide, ⟨_, rfl⟩, by decide, ⟨_, rfl⟩, by decide, by decide⟩

/-- One word for each cause of ERR_ACC, and the least reserved command. -/
theorem witness_EachErrorHasItsCauses :
    TW.size 0x70800000049#43 = 0b11#2 ∧ (TW.addr 0x20100000000#43).extractLsb' 0 2 ≠ 0b00#2 ∧ 0x1C#8 < TW.addr 0x22000000000#43 ∧
    (TW.we 0x20000000000#43 = false ∧ TW.addr 0x20000000000#43 = 0x00#8) ∧ (TW.we 0x60400000000#43 = true ∧ TW.addr 0x60400000000#43 = 0x04#8) ∧
    (TW.addr 0x00400000000#43 ≠ 0x08#8 ∧ TW.size 0x00400000000#43 ≠ 0b10#2) ∧
    (TW.we 0x60000000004#43 = true ∧ TW.addr 0x60000000004#43 = 0x00#8 ∧ TW.size 0x60000000004#43 = 0b10#2 ∧ 3#32 < TW.wdata 0x60000000004#43) ∧
    ∃ t, exec (decode 0x60000000004#43) State.reset = .next t :=
  ⟨by decide, by decide, by decide, by decide, by decide, by decide, by decide, ⟨_, rfl⟩⟩

/-- K10: the value is a reserved command's and the access is illegal. -/
theorem witness_OneErrorPerTransaction :
    (∃ t, exec (decode 0x40000000004#43) State.reset = .next t) ∧ legal 0x40000000004#43 = false := ⟨⟨_, rfl⟩, by decide⟩

theorem witness_ErrorBitsLockNothing :
    (∃ t, exec .cmdInit erring = .next t) ∧ Instr.cmdInit ≠ .cmdClrerr ∧ erring.block.errCmd = true ∧ erring.block.errAcc = true ∧
    ∀ x, Instr.cmdInit ≠ .rdStatus x :=
  ⟨⟨_, rfl⟩, by decide, rfl, rfl, fun _ h => by cases h⟩

theorem witness_ErrorBitsTellMisuse :
    State.reset.block.noError = true ∧ ∀ tw ∈ [0x60000000001#43, 0x60000000004#43], decode tw ≠ .cmdClrerr :=
  ⟨rfl, by simp only [List.forall_mem_cons]; exact ⟨by decide, by decide, fun _ h => by cases h⟩⟩

/-- Two states that hold the same block, with different RDATA. -/
theorem witness_EqualBlocksRespondIdentically :
    (State.ofBlock afterK2).block = ({ State.ofBlock afterK2 with rdata := some 1#32 } : State).block ∧
    (∀ x ∈ [Input.rst, Input.txn 0x20400000000#43], x ≠ .powerCycle) := by decide

theorem witness_TheWholeBlockCanBeReadBack :
    answers (State.ofBlock afterK2)
        (transactions [0x20400000000#43, 0x21400000000#43, 0x21800000000#43, 0x20C00000000#43, 0x21C00000000#43]) =
      answers { State.ofBlock afterK2 with rdata := some 1#32 }
        (transactions [0x20400000000#43, 0x21400000000#43, 0x21800000000#43, 0x20C00000000#43, 0x21C00000000#43]) := by decide +kernel

/-- The first and the last address inside the window, and the first above it, whatever CRC_BASE is. -/
theorem witness_WindowSitsAtCrcBase :
    (Config.crcBase ≤ Config.crcBase ∧ Config.crcBase < Config.crcBase + 256) ∧
    (Config.crcBase ≤ Config.crcBase + 255 ∧ Config.crcBase + 255 < Config.crcBase + 256) ∧
    ¬ (Config.crcBase ≤ Config.crcBase + 256 ∧ Config.crcBase + 256 < Config.crcBase + 256) := by omega

theorem witness_CrcIsAffine : [0x49#8].length = [0x45#8].length ∧ [0x45#8].length = [0x00#8].length := by decide

/-- X6's change, one bit; and a burst over the 32 bits of four bytes. -/
theorem witness_BurstErrorsAreDetected :
    ([0x6F#8].length = [0x6E#8].length ∧ [0x6F#8] ≠ [0x6E#8]) ∧
    (∀ i, serialBit [0x6F#8] i ≠ serialBit [0x6E#8] i → 0 ≤ i ∧ i < 0 + 32) ∧
    (∀ i, serialBit [0#8, 0#8, 0#8, 0#8] i ≠ serialBit [0xFF#8, 0#8, 0#8, 0x80#8] i → 0 ≤ i ∧ i < 0 + 32) := by
  refine ⟨by decide, fun i h => ⟨by omega, ?_⟩, fun i h => ⟨by omega, ?_⟩⟩ <;>
    (by_contra hi
     obtain ⟨k, hk⟩ : ∃ k, i / 8 = k + 4 := ⟨i / 8 - 4, by omega⟩
     exact h (by simp [serialBit, hk]))

theorem witness_MessagesContinueWithoutInit :
    (Input.txn 0x60000000001#43 = .txn 0x60000000001#43 ∨ Input.txn 0x60000000001#43 = .rst) ∧
    (Input.rst = .txn 0x60000000001#43 ∨ Input.rst = .rst) := by decide

theorem witness_ResultIsTheCrcOfTheBytesWritten :
    ∀ p ∈ [(4, 0x31323334#32), (2, 0xFFFF3536#32), (1, 0x37#32)], p.1 = 1 ∨ p.1 = 2 ∨ p.1 = 4 := by decide

/-- X4 is framed, with a right and with a wrong stored CRC. -/
theorem witness_VerificationTellsWhetherTheCrcMatches :
    recordFramed [0#8, 0#8, 0#8, 0#8, 0x49#8, 0x45#8, 0x4E#8, 0x44#8, 0xAE#8, 0x42#8, 0x60#8, 0x82#8] = true ∧
    recordFramed [0#8, 0#8, 0#8, 0#8, 0x49#8, 0x45#8, 0x4E#8, 0x44#8, 0xAE#8, 0x42#8, 0x60#8, 0x83#8] = true := by decide

theorem witness_GeneratedRecordsVerify : ruSt.length = 4 ∧ [0x61#8].length < 2 ^ 32 := by decide

/-- The first and the last bit of the region of "ruSt" with one byte of data. -/
theorem witness_OneFlippedBitIsAMismatch :
    ruSt.length = 4 ∧ [0x61#8].length < 2 ^ 32 ∧ (4 ≤ 4 ∧ 4 < 12 + [0x61#8].length ∧ 0 < 8) ∧
    (4 ≤ 12 ∧ 12 < 12 + [0x61#8].length ∧ 7 < 8) := by decide

end Sys2Proof.Tests
end

section
/-!
SUPPORT. The state of the block (10_state.md): what each instruction leaves in the block and returns on RDATA, one equation a row of the opcode table,
and the statements about STATUS, the registers' writers, the tuple of R34 and the values after reset.
-/
namespace Sys2Proof.Machine

/-! ## The block each instruction leaves -/

@[simp] theorem blockAfter_cmdNop (b : Block) : blockAfter .cmdNop b = b := rfl
@[simp] theorem blockAfter_cmdInit (b : Block) :
    blockAfter .cmdInit b = { b.clearOutcome with state := initialValue, count := 0#32 } := rfl
@[simp] theorem blockAfter_cmdVerify (b : Block) :
    blockAfter .cmdVerify b = { b.setOutcome (finalize b.state) with actual := finalize b.state } := rfl
@[simp] theorem blockAfter_cmdClrerr (b : Block) : blockAfter .cmdClrerr b = b.clearErrors := rfl
@[simp] theorem blockAfter_cmdRsvd (c : Word) (b : Block) : blockAfter (.cmdRsvd c) b = b.setError .cmd := rfl
@[simp] theorem blockAfter_dinB (x : BitVec 24) (v : Byte) (b : Block) :
    blockAfter (.dinB x v) b = b.absorbWrite 1 (wdataOfByte x v) := rfl
@[simp] theorem blockAfter_dinH (x h : BitVec 16) (b : Block) :
    blockAfter (.dinH x h) b = b.absorbWrite 2 (wdataOfHalf x h) := rfl
@[simp] theorem blockAfter_dinW (w : Word) (b : Block) : blockAfter (.dinW w) b = b.absorbWrite 4 w := rfl
@[simp] theorem blockAfter_wrExpect (v : Word) (b : Block) : blockAfter (.wrExpect v) b = { b with expect := v } := rfl
@[simp] theorem blockAfter_rdStatus (x : Word) (b : Block) : blockAfter (.rdStatus x) b = b := rfl
@[simp] theorem blockAfter_rdExpect (x : Word) (b : Block) : blockAfter (.rdExpect x) b = b := rfl
@[simp] theorem blockAfter_rdResult (x : Word) (b : Block) : blockAfter (.rdResult x) b = b := rfl
@[simp] theorem blockAfter_rdState (x : Word) (b : Block) : blockAfter (.rdState x) b = b := rfl
@[simp] theorem blockAfter_rdCount (x : Word) (b : Block) : blockAfter (.rdCount x) b = b := rfl
@[simp] theorem blockAfter_rdActual (x : Word) (b : Block) : blockAfter (.rdActual x) b = b := rfl
@[simp] theorem blockAfter_accIllegal (a : TW) (b : Block) : blockAfter (.accIllegal a) b = b.setError .acc := rfl

/-- Rows 10 to 15 of the opcode table, the legal reads, leave the block as it was (R50). -/
theorem blockAfter_of_read {i : Instr} (h : 10 ≤ i.priority ∧ i.priority ≤ 15) (b : Block) : blockAfter i b = b := by
  cases i with
  | rdStatus x => rfl
  | rdExpect x => rfl
  | rdResult x => rfl
  | rdState x => rfl
  | rdCount x => rfl
  | rdActual x => rfl
  | _ => simp [Instr.priority] at h

/-! ## The word each read returns (R141 to R146) -/

@[simp] theorem rdataAfter_rdStatus (x : Word) (b : Block) : rdataAfter (.rdStatus x) b = some b.status := rfl
@[simp] theorem rdataAfter_rdExpect (x : Word) (b : Block) : rdataAfter (.rdExpect x) b = some b.expect := rfl
@[simp] theorem rdataAfter_rdResult (x : Word) (b : Block) : rdataAfter (.rdResult x) b = some (finalize b.state) := rfl
@[simp] theorem rdataAfter_rdState (x : Word) (b : Block) : rdataAfter (.rdState x) b = some b.state := rfl
@[simp] theorem rdataAfter_rdCount (x : Word) (b : Block) : rdataAfter (.rdCount x) b = some b.count := rfl
@[simp] theorem rdataAfter_rdActual (x : Word) (b : Block) : rdataAfter (.rdActual x) b = some b.actual := rfl

/-- The answers to a list of legal reads all come from the block as it was at the start, since no read changes it. -/
theorem answers_reads (s : State) (words : List TW)
    (h : ∀ tw ∈ words, 10 ≤ (decode tw).priority ∧ (decode tw).priority ≤ 15) :
    answers s (transactions words) = words.map fun tw => rdataAfter (decode tw) s.block := by
  induction words generalizing s with
  | nil => rfl
  | cons tw words ih =>
    have hblock : (served s (.txn tw)).block = s.block := blockAfter_of_read (h tw (.head _)) s.block
    rw [transactions_cons, answers_cons, ih _ fun w hw => h w (.tail _ hw), hblock]
    rfl

/-! ## Who writes which flag (R32) -/

/-- VDONE, MATCH and MISMATCH are kept by everything but VERIFY and INIT. -/
theorem blockAfter_outcome {i : Instr} (hverify : i ≠ .cmdVerify) (hinit : i ≠ .cmdInit) (b : Block) :
    (blockAfter i b).vdone = b.vdone ∧ (blockAfter i b).matchBit = b.matchBit ∧
      (blockAfter i b).mismatchBit = b.mismatchBit := by
  cases i with
  | cmdVerify => exact absurd rfl hverify
  | cmdInit => exact absurd rfl hinit
  | _ => exact ⟨rfl, rfl, rfl⟩

/-- ERR_CMD is kept by everything but a reserved command and CLRERR. -/
theorem blockAfter_errCmd {i : Instr} (hrsvd : ∀ c, i ≠ .cmdRsvd c) (hclrerr : i ≠ .cmdClrerr) (b : Block) :
    (blockAfter i b).errCmd = b.errCmd := by
  cases i with
  | cmdRsvd c => exact absurd rfl (hrsvd c)
  | cmdClrerr => exact absurd rfl hclrerr
  | _ => rfl

/-- ERR_ACC is kept by everything but an illegal access and CLRERR. -/
theorem blockAfter_errAcc {i : Instr} (hillegal : ∀ a, i ≠ .accIllegal a) (hclrerr : i ≠ .cmdClrerr) (b : Block) :
    (blockAfter i b).errAcc = b.errAcc := by
  cases i with
  | accIllegal a => exact absurd rfl (hillegal a)
  | cmdClrerr => exact absurd rfl hclrerr
  | _ => rfl

/-- Settles O35: each clause is what one instruction does to a flag, or the flag's frame over the other instructions. -/
theorem flagsChangeOnlyWhereListed : Obligations.FlagsChangeOnlyWhereListed := by
  intro i s t h
  obtain rfl := exec_next_inv h
  refine ⟨?_, ?_, fun hverify hinit => blockAfter_outcome hverify hinit s.block, ?_, ?_, ?_,
    fun hrsvd hclrerr => blockAfter_errCmd hrsvd hclrerr s.block,
    fun hillegal hclrerr => blockAfter_errAcc hillegal hclrerr s.block, ?_⟩
  · rintro rfl
    simp [bne]
  · rintro rfl
    simp
  · rintro ⟨c, rfl⟩
    simp
  · rintro ⟨a, rfl⟩
    simp
  · rintro rfl
    simp
  · rintro (⟨x, b, rfl⟩ | ⟨x, h, rfl⟩ | ⟨w, rfl⟩ | ⟨v, rfl⟩ | hread)
    · rfl
    · rfl
    · rfl
    · rfl
    · exact congrArg Block.status (blockAfter_of_read hread s.block)

/-! ## Who writes which register (R23 to R26) -/

/-- STATE and COUNT: INIT and the DIN writes. -/
theorem writer_of_state_or_count_ne {i : Instr} {b : Block}
    (h : (blockAfter i b).state ≠ b.state ∨ (blockAfter i b).count ≠ b.count) :
    i = .cmdInit ∨ (∃ x v, i = .dinB x v) ∨ (∃ x v, i = .dinH x v) ∨ (∃ w, i = .dinW w) := by
  cases i with
  | cmdInit => exact .inl rfl
  | dinB x v => exact .inr (.inl ⟨x, v, rfl⟩)
  | dinH x v => exact .inr (.inr (.inl ⟨x, v, rfl⟩))
  | dinW w => exact .inr (.inr (.inr ⟨w, rfl⟩))
  | _ => simp at h

/-- EXPECT: WR.EXPECT. -/
theorem writer_of_expect_ne {i : Instr} {b : Block} (h : (blockAfter i b).expect ≠ b.expect) :
    ∃ v, i = .wrExpect v ∧ (blockAfter i b).expect = v := by
  cases i with
  | wrExpect v => exact ⟨v, rfl, rfl⟩
  | _ => exact absurd rfl h

/-- ACTUAL: VERIFY. -/
theorem writer_of_actual_ne {i : Instr} {b : Block} (h : (blockAfter i b).actual ≠ b.actual) :
    i = .cmdVerify ∧ (blockAfter i b).actual = finalize b.state := by
  cases i with
  | cmdVerify => exact ⟨rfl, rfl⟩
  | _ => exact absurd rfl h

/-- Settles O36, register by register. -/
theorem registersHaveOnlyTheirWriters : Obligations.RegistersHaveOnlyTheirWriters := by
  intro i s t h
  obtain rfl := exec_next_inv h
  exact ⟨writer_of_state_or_count_ne, writer_of_expect_ne, writer_of_actual_ne⟩

/-! ## The invariant of STATUS (R28) -/

/-- The invariant speaks of the three outcome flags alone. -/
theorem Block.statusOk_congr {b c : Block} (hvdone : b.vdone = c.vdone) (hmatch : b.matchBit = c.matchBit)
    (hmismatch : b.mismatchBit = c.mismatchBit) : b.statusOk = c.statusOk := by
  rw [statusOk, statusOk, hvdone, hmatch, hmismatch]

/-- VERIFY and INIT establish the invariant, and every other instruction keeps the flags it speaks of. -/
theorem blockAfter_statusOk (i : Instr) {b : Block} (h : b.statusOk = true) : (blockAfter i b).statusOk = true := by
  by_cases hverify : i = .cmdVerify
  · subst hverify
    cases heq : finalize b.state == b.expect <;> simp [Block.statusOk, bne, heq]
  by_cases hinit : i = .cmdInit
  · subst hinit
    rfl
  obtain ⟨hvdone, hmatch, hmismatch⟩ := blockAfter_outcome hverify hinit b
  rw [Block.statusOk_congr hvdone hmatch hmismatch, h]

/-- What a step can do: nothing when no input waits, or else serve the oldest. -/
theorem step_next_inv {s t : State} (h : step s = .next t) :
    (s.inputs = [] ∧ t = s) ∨ ∃ x rest, s.inputs = x :: rest ∧ t = served { s with inputs := rest } x := by
  cases hin : s.inputs with
  | nil =>
    rw [step_nil hin] at h
    injection h with h
    exact .inl ⟨rfl, h.symm⟩
  | cons x rest =>
    rw [step_cons hin] at h
    injection h with h
    exact .inr ⟨x, rest, rfl, h.symm⟩

/-- Power stays over a list of inputs: the oldest is no power cycle, and power stays over the rest. -/
theorem powerStays_cons {s : State} {x : Input} {rest : List Input} (hin : s.inputs = x :: rest)
    (h : s.powerStays = true) : x ≠ .powerCycle ∧ ({ s with inputs := rest } : State).powerStays = true := by
  simp only [State.powerStays, hin, List.contains_cons, Bool.not_or, Bool.and_eq_true] at h ⊢
  obtain ⟨hx, hrest⟩ := h
  exact ⟨fun heq => by simp [heq] at hx, hrest⟩

@[simp] theorem served_powerStays (s : State) (x : Input) : (served s x).powerStays = s.powerStays := by
  rw [State.powerStays, served_inputs, State.powerStays]

/-- Serving a transaction or a reset keeps the invariant. -/
theorem served_inv {s : State} {x : Input} (hx : x ≠ .powerCycle) (h : s.Inv) : (served s x).Inv := by
  obtain ⟨hstatus, hpower⟩ := h
  refine ⟨?_, by rw [served_powerStays, hpower]⟩
  cases x with
  | txn tw => exact blockAfter_statusOk (decode tw) hstatus
  | rst => rfl
  | powerCycle => exact absurd rfl hx

/-- Settles O18: a step serves nothing, or an input that is no power cycle. -/
theorem stepKeepsStatusInvariant : Obligations.StepKeepsStatusInvariant := by
  intro s t hinv h
  obtain ⟨-, rfl⟩ | ⟨x, rest, hin, rfl⟩ := step_next_inv h
  · exact hinv
  · obtain ⟨hstatus, hpower⟩ := hinv
    obtain ⟨hx, hrest⟩ := powerStays_cons hin hpower
    exact served_inv hx ⟨hstatus, hrest⟩

/-- Settles O19: the reset block has no outcome flag set. -/
theorem statusInvariantHoldsAfterReset : Obligations.StatusInvariantHoldsAfterReset := by
  refine ⟨⟨rfl, rfl⟩, ?_⟩
  intro s t rest hpower hin h
  rw [step_cons hin] at h
  injection h with h
  subst h
  exact ⟨rfl, (powerStays_cons hin hpower).2⟩

/-! ## The block decides every answer (R34, R53) -/

/-- Two states with the same block serve a transaction or a reset alike: neither reads anything but the block. -/
theorem served_congr {s t : State} {x : Input} (hblock : s.block = t.block) (hx : x ≠ .powerCycle) :
    (served s x).block = (served t x).block ∧ (served s x).rdata = (served t x).rdata := by
  cases x with
  | txn tw => simp only [served, hblock, and_self]
  | rst => exact ⟨rfl, rfl⟩
  | powerCycle => exact absurd rfl hx

theorem foldl_served_inputs (s : State) (ins : List Input) : (ins.foldl served s).inputs = s.inputs := by
  induction ins generalizing s with
  | nil => rfl
  | cons x ins ih => rw [List.foldl_cons, ih, served_inputs]

/-- `served_congr` along a list of inputs. -/
theorem answers_and_block_congr {s t : State} {ins : List Input} (hblock : s.block = t.block)
    (hins : ∀ x ∈ ins, x ≠ .powerCycle) :
    answers s ins = answers t ins ∧ (ins.foldl served s).block = (ins.foldl served t).block := by
  induction ins generalizing s t with
  | nil => exact ⟨rfl, hblock⟩
  | cons x ins ih =>
    obtain ⟨hblock', hrdata⟩ := served_congr hblock (hins x (.head _))
    obtain ⟨hanswers, hend⟩ := ih hblock' fun y hy => hins y (.tail _ hy)
    exact ⟨by rw [answers_cons, answers_cons, hrdata, hanswers], hend⟩

/-- Settles O42, by induction over the list of inputs. -/
theorem equalBlocksRespondIdentically : Obligations.EqualBlocksRespondIdentically := by
  intro s t ins hblock hins
  obtain ⟨hanswers, hend⟩ := answers_and_block_congr hblock hins
  exact ⟨hanswers, _, _, serve_eq_foldl s ins, serve_eq_foldl t ins, hend, foldl_served_inputs s ins,
    foldl_served_inputs t ins⟩

/-! ## The block read back through the port (R33, R34) -/

/-- STATUS, STATE, COUNT, EXPECT and ACTUAL hold the whole block: each flag is a bit of STATUS. -/
theorem Block.eq_of_registers {b c : Block} (hstatus : b.status = c.status) (hstate : b.state = c.state)
    (hcount : b.count = c.count) (hexpect : b.expect = c.expect) (hactual : b.actual = c.actual) : b = c := by
  have hbit (j : Nat) : b.status.getLsbD j = c.status.getLsbD j := by rw [hstatus]
  simp only [getLsbD_status] at hbit
  cases b
  cases c
  rw [Block.mk.injEq]
  exact ⟨hstate, hcount, hexpect, hactual, hbit 0, hbit 1, hbit 2, hbit 8, hbit 9⟩

@[simp] theorem decode_rdStatus_word : decode 0x20400000000#43 = .rdStatus 0#32 := by decide
@[simp] theorem decode_rdExpect_word : decode 0x20C00000000#43 = .rdExpect 0#32 := by decide
@[simp] theorem decode_rdResult_word : decode 0x21000000000#43 = .rdResult 0#32 := by decide
@[simp] theorem decode_rdState_word : decode 0x21400000000#43 = .rdState 0#32 := by decide
@[simp] theorem decode_rdCount_word : decode 0x21800000000#43 = .rdCount 0#32 := by decide
@[simp] theorem decode_rdActual_word : decode 0x21C00000000#43 = .rdActual 0#32 := by decide

/-- The answers to the five reads of R34, from any state. -/
theorem answers_tuple_reads (s : State) :
    answers s (transactions [0x20400000000#43, 0x21400000000#43, 0x21800000000#43, 0x20C00000000#43, 0x21C00000000#43]) =
      [some s.block.status, some s.block.state, some s.block.count, some s.block.expect, some s.block.actual] := by
  rw [answers_reads _ _ (by simp [Instr.priority])]
  simp

/-- Settles O43: the five answers are the registers that hold the block. -/
theorem theWholeBlockCanBeReadBack : Obligations.TheWholeBlockCanBeReadBack := by
  intro s t h
  rw [answers_tuple_reads, answers_tuple_reads] at h
  simp only [List.cons.injEq, Option.some.injEq, and_true] at h
  obtain ⟨hstatus, hstate, hcount, hexpect, hactual⟩ := h
  exact Block.eq_of_registers hstatus hstate hcount hexpect hactual

@[simp] theorem Block.reset_status : Block.reset.status = 0#32 := by decide

/-- Settles O15: six reads of the reset block. -/
theorem resetValuesAsRead : Obligations.ResetValuesAsRead := by
  unfold Obligations.ResetValuesAsRead
  rw [answers_reads _ _ (by simp [Instr.priority])]
  simp [finalize, finalXor]

/-! ## The tuple of 133 bits (R34) -/

/-! Bits 0 to 4 of the tuple are the flags, and a register stands at each of bits 5, 37, 69 and 101. -/

theorem Block.getLsbD_toTuple_flags (b : Block) :
    b.toTuple.getLsbD 0 = b.errAcc ∧ b.toTuple.getLsbD 1 = b.errCmd ∧ b.toTuple.getLsbD 2 = b.mismatchBit ∧
      b.toTuple.getLsbD 3 = b.matchBit ∧ b.toTuple.getLsbD 4 = b.vdone := by
  simp only [toTuple, BitVec.getLsbD_cast, BitVec.getLsbD_append]
  simp

theorem Block.getLsbD_toTuple_actual (b : Block) {i : Nat} (hi : i < 32) :
    b.toTuple.getLsbD (i + 5) = b.actual.getLsbD i := by
  simp only [toTuple, BitVec.getLsbD_cast, BitVec.getLsbD_append]
  simp [hi]

theorem Block.getLsbD_toTuple_expect (b : Block) {i : Nat} (hi : i < 32) :
    b.toTuple.getLsbD (i + 37) = b.expect.getLsbD i := by
  simp only [toTuple, BitVec.getLsbD_cast, BitVec.getLsbD_append]
  simp [hi]

theorem Block.getLsbD_toTuple_count (b : Block) {i : Nat} (hi : i < 32) :
    b.toTuple.getLsbD (i + 69) = b.count.getLsbD i := by
  simp only [toTuple, BitVec.getLsbD_cast, BitVec.getLsbD_append]
  simp [hi]

theorem Block.getLsbD_toTuple_state (b : Block) {i : Nat} (hi : i < 32) :
    b.toTuple.getLsbD (i + 101) = b.state.getLsbD i := by
  simp only [toTuple, BitVec.getLsbD_cast, BitVec.getLsbD_append]
  have hhigh : ¬ i + 64 < 32 ∧ ¬ i + 96 < 32 := by omega
  simp [hhigh]

/-- Bit `i` of a 32-bit slice of a tuple. -/
theorem getLsbD_tupleSlice (t : BitVec 133) (start : Nat) {i : Nat} (hi : i < 32) :
    (t.extractLsb' start 32).getLsbD i = t.getLsbD (i + start) := by
  rw [BitVec.getLsbD_extractLsb', decide_eq_true hi, Bool.true_and, Nat.add_comm]

/-- The tuple of a block names the block. -/
theorem Block.ofTuple_toTuple (b : Block) : ofTuple b.toTuple = b := by
  have hregister (start : Nat) (w : Word) (h : ∀ i < 32, b.toTuple.getLsbD (i + start) = w.getLsbD i) :
      b.toTuple.extractLsb' start 32 = w :=
    BitVec.eq_of_getLsbD_eq fun i hi => (getLsbD_tupleSlice _ start hi).trans (h i hi)
  obtain ⟨herrAcc, herrCmd, hmismatch, hmatch, hvdone⟩ := b.getLsbD_toTuple_flags
  rw [ofTuple, hregister 101 b.state fun _ => b.getLsbD_toTuple_state,
    hregister 69 b.count fun _ => b.getLsbD_toTuple_count, hregister 37 b.expect fun _ => b.getLsbD_toTuple_expect,
    hregister 5 b.actual fun _ => b.getLsbD_toTuple_actual, herrAcc, herrCmd, hmismatch, hmatch, hvdone]

/-- The block a tuple names has that tuple. -/
theorem Block.toTuple_ofTuple (t : BitVec 133) : (ofTuple t).toTuple = t := by
  obtain ⟨herrAcc, herrCmd, hmismatch, hmatch, hvdone⟩ := (ofTuple t).getLsbD_toTuple_flags
  apply BitVec.eq_of_getLsbD_eq
  intro j hj
  obtain hflag | ⟨i, hi, rfl | rfl | rfl | rfl⟩ :
      j < 5 ∨ ∃ i < 32, j = i + 5 ∨ j = i + 37 ∨ j = i + 69 ∨ j = i + 101 := by
    by_cases hflag : j < 5
    · exact .inl hflag
    · exact .inr ⟨(j - 5) % 32, by omega, by omega⟩
  · interval_cases j
    exacts [herrAcc, herrCmd, hmismatch, hmatch, hvdone]
  · rw [getLsbD_toTuple_actual _ hi]
    exact getLsbD_tupleSlice t 5 hi
  · rw [getLsbD_toTuple_expect _ hi]
    exact getLsbD_tupleSlice t 37 hi
  · rw [getLsbD_toTuple_count _ hi]
    exact getLsbD_tupleSlice t 69 hi
  · rw [getLsbD_toTuple_state _ hi]
    exact getLsbD_tupleSlice t 101 hi

/-- Settles O44. -/
theorem theBlockIsA133BitTuple : Obligations.TheBlockIsA133BitTuple :=
  ⟨Block.ofTuple_toTuple, Block.toTuple_ofTuple⟩

end Sys2Proof.Machine
end

section
/-!
SUPPORT. The block's window (20_memory.md): the legal words and what they decode to, DIN writes as bytes absorbed into the block, and the statements about
the table of accepted combinations, ignored WDATA bits, idempotence, the order of inputs and CRC_BASE.
-/
namespace Sys2Proof

/-! ## Legal words and the table of accepted combinations (R48, R147) -/

/-- A register's offset with a SIZE it accepts makes a legal word. -/
theorem Reg.legal_of_acceptedSizes (we : Bool) (r : Reg) :
    ∀ size ∈ r.acceptedSizes we, legal (TW.ofFields we size r.offset 0#32) = true := by
  cases we <;> cases r <;> decide

theorem legal_of_accepted {tw : TW} (h : accepted tw = true) : legal tw = true := by
  obtain ⟨r, -, hr⟩ := List.any_eq_true.mp h
  obtain ⟨haddr, hsize⟩ : r.offset = TW.addr tw ∧ TW.size tw ∈ r.acceptedSizes (TW.we tw) := by simpa using hr
  rw [← TW.ofFields_fields tw, Laws.legal_ofFields _ _ _ _ 0#32, ← haddr]
  exact r.legal_of_acceptedSizes _ _ hsize

/-- The formula of R147 and the table of R48 are the same check. -/
theorem accepted_eq_legal (tw : TW) : accepted tw = legal tw := by
  cases tw using word_cases with
  | illegal a ha =>
    rw [ha]
    exact Bool.eq_false_iff.mpr fun h => by simp [legal_of_accepted h] at ha
  | _ => simp [accepted, legal, Reg.all, Reg.offset, Reg.acceptedSizes]

theorem decodeCommand_priority_le (wdata : Word) : (decodeCommand wdata).priority ≤ 5 := by
  rw [decodeCommand]
  split_ifs <;> simp [Instr.priority]

/-- A legal write decodes to one of rows 1 to 9, a legal read to one of rows 10 to 15 (R65). -/
theorem decode_priority_of_legal {tw : TW} (h : legal tw = true) :
    (decode tw).priority ≤ 15 ∧ (TW.we tw = false → 10 ≤ (decode tw).priority) := by
  cases tw using word_cases with
  | illegal a ha => simp [ha] at h
  | command w =>
    have hle := decodeCommand_priority_le w
    rw [decode_command]
    exact ⟨by omega, by simp⟩
  | _ =>
    simp [decode_dinB, decode_dinH, decode_dinW, decode_wrExpect, decode_rdStatus, decode_rdExpect, decode_rdResult,
      decode_rdState, decode_rdCount, decode_rdActual, Instr.priority]

/-- A legal word is no illegal access: its row comes before the table's last. -/
theorem decode_ne_accIllegal_of_legal {tw : TW} (h : legal tw = true) (a : TW) : decode tw ≠ .accIllegal a := by
  intro heq
  obtain ⟨hle, -⟩ := decode_priority_of_legal h
  simp [heq, Instr.priority] at hle

/-- The word of a well-formed instruction decodes to it (R61, R65). -/
theorem decode_encode {i : Instr} (h : i.wf = true) : decode (encode i) = i := by
  cases i with
  | cmdRsvd c =>
    obtain ⟨⟨⟨h0, h1⟩, h2⟩, h3⟩ : ((c ≠ 0#32 ∧ c ≠ 1#32) ∧ c ≠ 2#32) ∧ c ≠ 3#32 := by simpa [Instr.wf] using h
    rw [encode, decode_command, decodeCommand, if_neg h0, if_neg h1, if_neg h2, if_neg h3]
  | accIllegal a => exact decode_of_not_legal ((Bool.not_eq_true' _).mp h)
  | cmdNop => exact decode_command _
  | cmdInit => exact decode_command _
  | cmdVerify => exact decode_command _
  | cmdClrerr => exact decode_command _
  | dinB x b => rw [encode, decode_dinB, extract_ignored_wdataOfByte, extract_operand_wdataOfByte]
  | dinH x h => rw [encode, decode_dinH, extract_ignored_wdataOfHalf, extract_operand_wdataOfHalf]
  | dinW w => exact decode_dinW w
  | wrExpect v => exact decode_wrExpect v
  | rdStatus x => exact decode_rdStatus x
  | rdExpect x => exact decode_rdExpect x
  | rdResult x => exact decode_rdResult x
  | rdState x => exact decode_rdState x
  | rdCount x => exact decode_rdCount x
  | rdActual x => exact decode_rdActual x

/-- The rows that absorb message bytes (R120). -/
def Instr.isDinWrite : Instr → Bool
  | .dinB _ _ => true
  | .dinH _ _ => true
  | .dinW _ => true
  | _ => false

/-- The DIN writes are the writes to 0x08 of a size that is not reserved (R66). -/
theorem decode_isDinWrite_iff (tw : TW) :
    (decode tw).isDinWrite = true ↔ TW.we tw = true ∧ TW.addr tw = 0x08#8 ∧ TW.size tw ≠ 0b11#2 := by
  cases tw using word_cases with
  | illegal a ha =>
    rw [decode_of_not_legal ha]
    refine iff_of_false (by simp [Instr.isDinWrite]) ?_
    rintro ⟨hwe, haddr, hsize⟩
    simp [legal, hwe, haddr, hsize] at ha
  | command w =>
    rw [decode_command, decodeCommand]
    split_ifs <;> simp [Instr.isDinWrite]
  | _ =>
    simp [decode_dinB, decode_dinH, decode_dinW, decode_wrExpect, decode_rdStatus, decode_rdExpect, decode_rdResult,
      decode_rdState, decode_rdCount, decode_rdActual, Instr.isDinWrite]

end Sys2Proof

namespace Sys2Proof.Machine

/-! ## Illegal accesses (R42, R47, R48, R124, R147) -/

theorem exec_accIllegal (a : TW) (s : State) : exec (.accIllegal a) s = raiseError .acc (!TW.we a) s := rfl

/-- An illegal word raises ERR_ACC alone, and a read of it returns 0. -/
theorem exec_decode_of_not_legal {tw : TW} (h : legal tw = false) (s : State) :
    ∃ t, exec (decode tw) s = .next t ∧ t = { s with block := { s.block with errAcc := true }, rdata := t.rdata } ∧
      (TW.we tw = false → t.rdata = some 0#32) := by
  rw [decode_of_not_legal h, exec_accIllegal, raiseError_acc_next]
  exact ⟨_, rfl, rfl, fun hwe => by simp [hwe]⟩

/-- Settles O4: the table of R48 accepts the legal words and no other. -/
theorem unacceptedCombinationsRaiseErrAcc : Obligations.UnacceptedCombinationsRaiseErrAcc := by
  intro tw s
  rw [accepted_eq_legal]
  exact ⟨fun h => exec_decode_of_not_legal h s, fun h => decode_ne_accIllegal_of_legal h⟩

/-- Settles O34: each clause makes a conjunct of `legal` false. -/
theorem offsetsWithoutARegisterRaiseErrAcc : Obligations.OffsetsWithoutARegisterRaiseErrAcc := by
  intro tw s h
  refine exec_decode_of_not_legal ?_ s
  obtain hmisaligned | hunmapped | ⟨haddr, hread | hreserved⟩ := h
  · simp [legal, hmisaligned]
  · simp [legal, BitVec.not_le.mpr hunmapped]
  · simp [legal, haddr, hread]
  · simp [legal, hreserved]

/-! ## DIN writes as absorbed bytes (R43, R58, R120) -/

/-- A part of a part of a word. -/
theorem extractLsb'_extractLsb' {w : Nat} (v : BitVec w) (i : Nat) {n j k : Nat} (h : j + k ≤ n) :
    (v.extractLsb' i n).extractLsb' j k = v.extractLsb' (i + j) k := by
  apply BitVec.eq_of_getLsbD_eq
  intro l hl
  have hn : j + l < n := by omega
  simp [hl, hn, Nat.add_assoc]

/-- The block after a message part `m` (R85, R120). -/
def Block.absorbBytes (b : Block) (m : List Byte) : Block :=
  { b with
    state := absorb b.state m
    count := b.count + BitVec.ofNat 32 m.length }

/-- The state after a DIN write that absorbs the bytes `m`. -/
def State.absorbBytes (s : State) (m : List Byte) : State :=
  { s with block := s.block.absorbBytes m, rdata := none }

theorem absorb_append (r : Word) (m n : List Byte) : absorb r (m ++ n) = absorb (absorb r m) n := by
  induction m generalizing r with
  | nil => rfl
  | cons b m ih => exact ih (crcByte r b)

@[simp] theorem Block.absorbBytes_absorbBytes (b : Block) (m n : List Byte) :
    (b.absorbBytes m).absorbBytes n = b.absorbBytes (m ++ n) := by
  simp [absorbBytes, absorb_append, BitVec.ofNat_add, BitVec.add_assoc]

@[simp] theorem State.absorbBytes_absorbBytes (s : State) (m n : List Byte) :
    (s.absorbBytes m).absorbBytes n = s.absorbBytes (m ++ n) := by
  simp [absorbBytes]

theorem dinWrite_eq_absorbBytes (k : Nat) (wdata : Word) (s : State) :
    dinWrite k wdata s = .next (s.absorbBytes (messageBytes k wdata)) := by
  rw [dinWrite_next, State.absorbBytes, Block.absorbBytes, messageBytes_length]

/-- The ignored bits of a DIN.B row do not reach the message (R121). -/
theorem messageBytes_wdataOfByte (x : BitVec 24) (b : Byte) : messageBytes 1 (wdataOfByte x b) = [b] := by
  rw [messageBytes_one, extract_operand_wdataOfByte]

/-- The ignored bits of a DIN.H row do not reach the message (R122). -/
theorem messageBytes_wdataOfHalf (x h : BitVec 16) :
    messageBytes 2 (wdataOfHalf x h) = [h.extractLsb' 8 8, h.extractLsb' 0 8] := by
  conv_rhs => rw [← extract_operand_wdataOfHalf x h]
  rw [messageBytes_two, extractLsb'_extractLsb' _ _ (by decide), extractLsb'_extractLsb' _ _ (by decide)]

theorem exec_dinB (x : BitVec 24) (b : Byte) (s : State) : exec (.dinB x b) s = .next (s.absorbBytes [b]) := by
  rw [← messageBytes_wdataOfByte x b, ← dinWrite_eq_absorbBytes]
  rfl

theorem exec_dinH (x h : BitVec 16) (s : State) :
    exec (.dinH x h) s = .next (s.absorbBytes [h.extractLsb' 8 8, h.extractLsb' 0 8]) := by
  rw [← messageBytes_wdataOfHalf x h, ← dinWrite_eq_absorbBytes]
  rfl

theorem exec_dinW (w : Word) (s : State) :
    exec (.dinW w) s = .next (s.absorbBytes (messageBytes 4 w)) :=
  dinWrite_eq_absorbBytes 4 w s

/-- A byte written by the assembler is the DIN.B operand, with 0 in the ignored bits (R69). -/
theorem setWidth_eq_wdataOfByte (b : Byte) : b.setWidth 32 = wdataOfByte 0#24 b :=
  BitVec.setWidth_eq_append (by decide)

/-- A halfword written by the assembler is the DIN.H operand, with 0 in the ignored bits (R69). -/
theorem setWidth_eq_wdataOfHalf (h : BitVec 16) : h.setWidth 32 = wdataOfHalf 0#16 h :=
  BitVec.setWidth_eq_append (by decide)

/-- Serving a transaction is running its decoded instruction. -/
theorem served_txn_of_exec {s t : State} {tw : TW} (h : exec (decode tw) s = .next t) : served s (.txn tw) = t :=
  (exec_next_inv h).symm

@[simp] theorem served_dinByteWord (s : State) (b : Byte) : served s (.txn (dinByteWord b)) = s.absorbBytes [b] := by
  apply served_txn_of_exec
  rw [dinByteWord, Reg.offset, setWidth_eq_wdataOfByte, decode_dinB, extract_operand_wdataOfByte, exec_dinB]

@[simp] theorem served_dinHalfWord (s : State) (h : BitVec 16) :
    served s (.txn (dinHalfWord h)) = s.absorbBytes [h.extractLsb' 8 8, h.extractLsb' 0 8] := by
  apply served_txn_of_exec
  rw [dinHalfWord, Reg.offset, setWidth_eq_wdataOfHalf, decode_dinH, extract_operand_wdataOfHalf, exec_dinH]

@[simp] theorem served_dinFullWord (s : State) (w : Word) :
    served s (.txn (writeWord .din w)) = s.absorbBytes (messageBytes 4 w) := by
  apply served_txn_of_exec
  rw [writeWord, Reg.offset, decode_dinW, exec_dinW]

/-- Settles O28: both sides of each equality absorb the same bytes in the same order. -/
theorem mixedWidthDinWritesAgree : Obligations.MixedWidthDinWritesAgree := by
  refine ⟨fun s h => ?_, fun s w => ?_, fun s w => ?_⟩ <;>
    simp [serve_eq_foldl, extractLsb'_extractLsb']

/-! ## WDATA bits above the transfer size (R46, R64, R67) -/

/-- WDATA bits that the transfer does not use have no effect. -/
theorem exec_decode_wdata_congr (we : Bool) (size : SizeCode) (addr : Offset) (x y : Word) (s : State)
    (hused : we = true → ∀ k, sizeBytes size = some k → x.extractLsb' 0 (8 * k) = y.extractLsb' 0 (8 * k)) :
    exec (decode (TW.ofFields we size addr x)) s = exec (decode (TW.ofFields we size addr y)) s := by
  cases hlegal : legal (TW.ofFields we size addr x) with
  | false =>
    have hlegal' : legal (TW.ofFields we size addr y) = false := by rw [← hlegal, Laws.legal_ofFields]
    rw [decode_of_not_legal hlegal, decode_of_not_legal hlegal', exec_accIllegal, exec_accIllegal, TW.we_ofFields,
      TW.we_ofFields]
  | true =>
    have hfull : we = true → size = 0b10#2 → x = y := by
      rintro rfl rfl
      simpa using hused rfl 4 rfl
    have hfields := fields_of_legal hlegal
    simp only [TW.we_ofFields, TW.size_ofFields, TW.addr_ofFields] at hfields
    rcases hfields with ⟨rfl, rfl, rfl⟩ | ⟨rfl, rfl, rfl⟩ | ⟨rfl, rfl, rfl⟩ | ⟨rfl, rfl, rfl⟩ | ⟨rfl, rfl, rfl⟩ |
      ⟨rfl, rfl, rfl⟩ | ⟨rfl, rfl, rfl⟩ | ⟨rfl, rfl, rfl⟩ | ⟨rfl, rfl, rfl⟩ | ⟨rfl, rfl, rfl⟩ | ⟨rfl, rfl, rfl⟩
    · rw [hfull rfl rfl]
    · have hbyte : x.extractLsb' 0 8 = y.extractLsb' 0 8 := hused rfl 1 rfl
      rw [decode_dinB, decode_dinB, exec_dinB, exec_dinB, hbyte]
    · have hhalf : x.extractLsb' 0 16 = y.extractLsb' 0 16 := hused rfl 2 rfl
      rw [decode_dinH, decode_dinH, exec_dinH, exec_dinH, hhalf]
    · rw [hfull rfl rfl]
    · rw [hfull rfl rfl]
    · rw [decode_rdStatus, decode_rdStatus]
      rfl
    · rw [decode_rdExpect, decode_rdExpect]
      rfl
    · rw [decode_rdResult, decode_rdResult]
      rfl
    · rw [decode_rdState, decode_rdState]
      rfl
    · rw [decode_rdCount, decode_rdCount]
      rfl
    · rw [decode_rdActual, decode_rdActual]
      rfl

/-- Settles O7: the two words differ in their WDATA fields alone. -/
theorem ignoredWdataBitsHaveNoEffect : Obligations.IgnoredWdataBitsHaveNoEffect := by
  intro v w s hwe hsize haddr hused
  have hcongr := exec_decode_wdata_congr _ _ (TW.addr v) _ _ s hused
  rwa [TW.ofFields_fields, hwe, hsize, haddr, TW.ofFields_fields] at hcongr

/-! ## Which transactions are idempotent (R50) -/

/-- COUNT moves on with every DIN write. -/
theorem blockAfter_count_ne {i : Instr} (h : i.isDinWrite = true) (b : Block) : (blockAfter i b).count ≠ b.count := by
  cases i with
  | dinB x v => simp
  | dinH x v => simp
  | dinW w => simp
  | _ => simp [Instr.isDinWrite] at h

/-- Run again where it has just run, anything but a DIN write leaves the block and returns the same RDATA. -/
theorem blockAfter_idem {i : Instr} (h : i.isDinWrite = false) (b : Block) :
    blockAfter i (blockAfter i b) = blockAfter i b ∧ rdataAfter i (blockAfter i b) = rdataAfter i b := by
  cases i with
  | dinB x v => simp [Instr.isDinWrite] at h
  | dinH x v => simp [Instr.isDinWrite] at h
  | dinW w => simp [Instr.isDinWrite] at h
  | _ => exact ⟨rfl, rfl⟩

/-- Settles O37: COUNT tells a second DIN write from the first, and nothing else moves twice. -/
theorem onlyDinWritesAreNotIdempotent : Obligations.OnlyDinWritesAreNotIdempotent := by
  intro tw s t h
  obtain rfl := exec_next_inv h
  rw [← decode_isDinWrite_iff, Bool.not_eq_true, exec_eq_next]
  refine ⟨fun hdin heq => ?_, fun hother => ?_, fun hread hlegal => ?_⟩
  · injection heq with heq
    exact blockAfter_count_ne hdin _ (congrArg (fun u : State => u.block.count) heq)
  · obtain ⟨hblock, hrdata⟩ := blockAfter_idem hother s.block
    simp only [hblock, hrdata]
  · obtain ⟨hle, hge⟩ := decode_priority_of_legal hlegal
    exact blockAfter_of_read ⟨hge hread, hle⟩ s.block

/-! ## The order of inputs (R45) -/

/-- What the host reads for `a ++ b`: the answers to `a`, then those that the state after `a` gives to `b`. -/
theorem answers_append (s : State) (a b : List Input) :
    answers s (a ++ b) = answers s a ++ answers (a.foldl served s) b := by
  induction a generalizing s with
  | nil => rfl
  | cons x a ih => rw [List.cons_append, answers_cons, answers_cons, ih, List.cons_append, List.foldl_cons]

/-- Settles O11: serving a list is a fold, and a fold over `a ++ b` is one over `b` from where `a` ends. -/
theorem earlierInputsAreServedFirst : Obligations.EarlierInputsAreServedFirst := by
  intro s a b
  refine ⟨a.foldl served s, serve_eq_foldl s a, foldl_served_inputs s a, ?_, answers_append s a b⟩
  rw [serve_eq_foldl, serve_eq_foldl, List.foldl_append]

/-- The word of a transaction, placed on the port, is the next input (log entry 10). -/
theorem withFetchWord_toNat (s : State) (tw : TW) : s.withFetchWord 48 tw.toNat = s.offer [.txn tw] := by
  have hlt : tw.toNat < 2 ^ 43 := tw.isLt
  have hmod : tw.toNat % 2 ^ 48 = tw.toNat := Nat.mod_eq_of_lt (by omega)
  rw [State.withFetchWord, hmod, if_pos hlt, BitVec.ofNat_toNat, BitVec.setWidth_eq]
  rfl

/-- Settles O10: each clause is the arm of `step` for the oldest input. -/
theorem stepServesTheOldestInput : Obligations.StepServesTheOldestInput := by
  have htxn (s : State) (tw : TW) (rest : List Input) (h : s.inputs = .txn tw :: rest) :
      step s = exec (decode tw) { s with inputs := rest } := by rw [step, h]
  refine ⟨htxn, fun s i rest hwf h => ?_, fun s tw => ?_, fun s rest h => ?_, fun s rest h => ?_, fun s h => step_nil h⟩
  · rw [htxn s _ rest h, decode_encode hwf]
  · rw [withFetchWord_toNat, htxn _ tw s.inputs rfl]
    rfl
  · rw [step, h]
  · rw [step, h]

/-! ## The window (R40) -/

/-- Settles O45: inside the window the offset fits 8 bits, so nothing of it is cut off. -/
theorem windowSitsAtCrcBase : Obligations.WindowSitsAtCrcBase := by
  intro we size address wdata
  refine ⟨fun hin => ?_, fun hout => ?_⟩
  · have hoffset : address - Config.crcBase < 2 ^ 8 := by omega
    refine ⟨_, by rw [hostAccess, windowOffset, if_pos hin, Option.map_some], ?_⟩
    simpa using hoffset
  · rw [hostAccess, windowOffset, if_neg hout, Option.map_none]

end Sys2Proof.Machine
end

section
/-!
SUPPORT. The encoding (30_encoding.md): decoder and encoder as inverses of each other, the first matching row of the opcode table, and the assembler's
lines with the words they stand for.
-/
namespace Sys2Proof

/-! ## Decoder and encoder (R61, R65) -/

/-- Settles O1: one equation of the decoder for each row. -/
theorem decodeInvertsEncode : Obligations.DecodeInvertsEncode := fun _ h => decode_encode h

theorem wf_decodeCommand (wdata : Word) : (decodeCommand wdata).wf = true := by
  rw [decodeCommand]
  split_ifs <;> simp_all [Instr.wf]

theorem wf_decode (tw : TW) : (decode tw).wf = true := by
  cases tw using word_cases with
  | illegal a ha => simp [decode_of_not_legal ha, Instr.wf, ha]
  | command w => rw [decode_command, wf_decodeCommand]
  | _ =>
    simp [decode_dinB, decode_dinH, decode_dinW, decode_wrExpect, decode_rdStatus, decode_rdExpect, decode_rdResult,
      decode_rdState, decode_rdCount, decode_rdActual, Instr.wf]

theorem encode_decodeCommand (wdata : Word) : encode (decodeCommand wdata) = TW.ofFields true 0b10#2 0x00#8 wdata := by
  rw [decodeCommand]
  split_ifs <;> simp_all [encode]

theorem encode_decode (tw : TW) : encode (decode tw) = tw := by
  cases tw using word_cases with
  | illegal a ha => rw [decode_of_not_legal ha, encode]
  | command w => rw [decode_command, encode_decodeCommand]
  | dinB w => rw [decode_dinB, encode, wdataOfByte_extract]
  | dinH w => rw [decode_dinH, encode, wdataOfHalf_extract]
  | _ =>
    simp [decode_dinW, decode_wrExpect, decode_rdStatus, decode_rdExpect, decode_rdResult, decode_rdState,
      decode_rdCount, decode_rdActual, encode]

/-- Settles O2: a word is illegal or one of the eleven legal forms, and each keeps all its bits. -/
theorem encodeInvertsDecode : Obligations.EncodeInvertsDecode := fun tw => ⟨wf_decode tw, encode_decode tw⟩

/-- Settles O6: sixteen closed evaluations of the decoder. -/
theorem writtenWordsDecode : Obligations.WrittenWordsDecode := by
  unfold Obligations.WrittenWordsDecode
  decide

/-! ## The first matching row (R65) -/

/-- Legality looks at no bit that an operand mask clears. -/
theorem legal_and_operandMask (tw : TW) : legal (tw &&& 0x7FF00000000#43) = legal tw := by
  rw [TW.and_operandMask, Laws.legal_ofFields _ _ _ _ (TW.wdata tw), TW.ofFields_fields]

/-- Rows 1 to 15 match legal words alone: they fix at least WE, SIZE and ADDR, at values that are legal. -/
theorem legal_of_matchesWord {r : OpcodeRow} {tw : TW} (hr : r ∈ opcodeTable.take 15) (h : r.matchesWord tw = true) :
    legal tw = true := by
  have hrows : ∀ r ∈ opcodeTable.take 15,
      r.mask &&& 0x7FF00000000#43 = 0x7FF00000000#43 ∧ legal r.value = true := by decide
  obtain ⟨hmask, hvalue⟩ := hrows r hr
  have hmatch : tw &&& r.mask = r.value := by simpa [OpcodeRow.matchesWord] using h
  rw [← legal_and_operandMask, ← hmask, ← BitVec.and_assoc, hmatch, legal_and_operandMask, hvalue]

/-- The first row of the table that matches is one with only rows before it that do not. -/
theorem firstRow_eq_of_split {tw : TW} {before after : List OpcodeRow} {r : OpcodeRow}
    (hsplit : opcodeTable = before ++ r :: after) (hr : r.matchesWord tw = true)
    (hbefore : ∀ q ∈ before, ¬ q.matchesWord tw = true) : firstRow tw = some r.priority := by
  have hfind : opcodeTable.find? (·.matchesWord tw) = some r :=
    List.find?_eq_some_iff_append.mpr ⟨hr, before, after, hsplit, by simpa using hbefore⟩
  rw [firstRow, hfind, Option.map_some]

/-- An illegal word falls to the last row (R147). -/
theorem firstRow_of_not_legal {tw : TW} (h : legal tw = false) : firstRow tw = some 16 := by
  refine firstRow_eq_of_split (before := opcodeTable.take 15) (r := ⟨16, 0#43, 0#43⟩) rfl
    (by simp [OpcodeRow.matchesWord]) fun r hr hmatch => ?_
  simp [legal_of_matchesWord hr hmatch] at h

/-- A command row matches its own word alone: a write to CTRL of one of the four command values. -/
theorem addr_wdata_of_matchesWord {r : OpcodeRow} {tw : TW} (hr : r ∈ opcodeTable.take 4) (h : r.matchesWord tw = true) :
    TW.addr tw = 0x00#8 ∧ TW.wdata tw ∈ [0#32, 1#32, 2#32, 3#32] := by
  have hrows : ∀ r ∈ opcodeTable.take 4,
      r.mask = 0x7FFFFFFFFFF#43 ∧ TW.addr r.value = 0x00#8 ∧ TW.wdata r.value ∈ [0#32, 1#32, 2#32, 3#32] := by decide
  obtain ⟨hmask, hvalue⟩ := hrows r hr
  have hmatch : tw &&& r.mask = r.value := by simpa [OpcodeRow.matchesWord] using h
  rw [hmask, TW.and_wholeMask] at hmatch
  rwa [hmatch]

/-- A command write matches the row of its command value, and the reserved row where it names no command (R66, R105). -/
theorem firstRow_command (wdata : Word) :
    firstRow (TW.ofFields true 0b10#2 0x00#8 wdata) = some (decodeCommand wdata).priority := by
  rw [decodeCommand]
  split_ifs with h0 h1 h2 h3
  · rw [h0]; decide
  · rw [h1]; decide
  · rw [h2]; decide
  · rw [h3]; decide
  · refine firstRow_eq_of_split (before := opcodeTable.take 4) (r := ⟨5, 0x60000000000#43, 0x7FF00000000#43⟩) rfl
      (Laws.matches_operandRow _ _ _ _ _ _ (by decide)) fun r hr hmatch => ?_
    obtain ⟨-, hcommand⟩ := addr_wdata_of_matchesWord hr hmatch
    simp [h0, h1, h2, h3] at hcommand

/-- The rows after the command rows look at no bit of WDATA. -/
theorem matchesWord_ofFields_of_mem_drop {r : OpcodeRow} (hr : r ∈ opcodeTable.drop 4) (we : Bool) (size : SizeCode)
    (addr : Offset) (v w : Word) :
    r.matchesWord (TW.ofFields we size addr v) = r.matchesWord (TW.ofFields we size addr w) := by
  have hrows : ∀ r ∈ opcodeTable.drop 4, 0x7FF00000000#43 &&& r.mask = r.mask := by decide
  rw [OpcodeRow.matchesWord, OpcodeRow.matchesWord, ← hrows r hr, ← BitVec.and_assoc, ← BitVec.and_assoc,
    TW.and_operandMask, TW.and_operandMask]
  simp

/-- Beyond CTRL, WDATA does not choose the row. -/
theorem firstRow_ofFields (we : Bool) (size : SizeCode) {addr : Offset} (haddr : addr ≠ 0x00#8) (wdata : Word) :
    firstRow (TW.ofFields we size addr wdata) = firstRow (TW.ofFields we size addr 0#32) := by
  have hcommand (w : Word) {r : OpcodeRow} (hr : r ∈ opcodeTable.take 4) :
      r.matchesWord (TW.ofFields we size addr w) = false := by
    refine Bool.eq_false_iff.mpr fun hmatch => haddr ?_
    obtain ⟨hctrl, -⟩ := addr_wdata_of_matchesWord hr hmatch
    rwa [TW.addr_ofFields] at hctrl
  have hrow : ∀ r ∈ opcodeTable,
      r.matchesWord (TW.ofFields we size addr wdata) = r.matchesWord (TW.ofFields we size addr 0#32) := by
    intro r hr
    rw [← List.take_append_drop 4 opcodeTable, List.mem_append] at hr
    obtain hr | hr := hr
    · rw [hcommand _ hr, hcommand _ hr]
    · exact matchesWord_ofFields_of_mem_drop hr ..
  rw [firstRow, firstRow, List.find?_congr hrow]

/-- Settles O3: rows 1 to 4 are told apart by WDATA, the later ones by WE, SIZE and ADDR alone. -/
theorem decodeSelectsFirstMatchingRow : Obligations.DecodeSelectsFirstMatchingRow := by
  intro tw
  cases tw using word_cases with
  | illegal a ha => rw [firstRow_of_not_legal ha, decode_of_not_legal ha, Instr.priority]
  | command w => rw [firstRow_command, decode_command]
  | _ =>
    rw [firstRow_ofFields _ _ (by decide)]
    simp only [decode_dinB, decode_dinH, decode_dinW, decode_wrExpect, decode_rdStatus, decode_rdExpect, decode_rdResult,
      decode_rdState, decode_rdCount, decode_rdActual, Instr.priority]
    decide

end Sys2Proof

namespace Sys2Proof.Machine

/-! ## The assembler's lines (R68 to R70) -/

/-- Settles O8: an illegal write is the word of its raw line, and an illegal read that of its raw line up to WDATA, which a read ignores. -/
theorem rawLinesSpellEveryIllegalAccess : Obligations.RawLinesSpellEveryIllegalAccess := by
  intro a ha
  cases hwe : TW.we a with
  | true =>
    have hword : TW.ofFields true (TW.size a) (TW.addr a) (TW.wdata a) = a := by rw [← hwe, TW.ofFields_fields]
    exact ⟨.rawWr (TW.size a) (TW.addr a) (TW.wdata a), rfl, a, by rw [AsmLine.words, hword], ha, hwe, rfl, rfl,
      fun _ => rfl⟩
  | false =>
    have hword : TW.ofFields false (TW.size a) (TW.addr a) (TW.wdata a) = a := by rw [← hwe, TW.ofFields_fields]
    refine ⟨.rawRd (TW.size a) (TW.addr a), rfl, _, rfl, ?_, by simp, by simp, by simp, fun s => ?_⟩
    · rw [Laws.legal_ofFields _ _ _ _ (TW.wdata a), hword, ha]
    · rw [exec_decode_wdata_congr _ _ _ _ (TW.wdata a) s (by simp), hword]

/-- The bytes of a full-word DIN write are those the word was put together from (R43, R69). -/
theorem messageBytes_fromBE32 (b0 b1 b2 b3 : Byte) : messageBytes 4 (fromBE32 b0 b1 b2 b3) = [b0, b1, b2, b3] :=
  be32_fromBE32 b0 b1 b2 b3

@[simp] theorem State.absorbBytes_block (s : State) (m : List Byte) : (s.absorbBytes m).block = s.block.absorbBytes m := rfl

@[simp] theorem Block.absorbBytes_nil (b : Block) : b.absorbBytes [] = b := by
  simp [absorbBytes]

/-- One DIN.B write for each byte absorbs the bytes. -/
theorem block_foldl_served_dinByteWords (m : List Byte) (s : State) :
    ((transactions (m.map dinByteWord)).foldl served s).block = s.block.absorbBytes m := by
  induction m generalizing s with
  | nil => simp
  | cons b m ih => simp [ih]

/-- The expansion of ABSORB absorbs the bytes (R69). -/
theorem block_foldl_served_absorbWords (m : List Byte) (s : State) :
    ((transactions (absorbWords m)).foldl served s).block = s.block.absorbBytes m := by
  induction m using absorbWords.induct generalizing s with
  | case1 => simp [absorbWords]
  | case2 b0 => simp [absorbWords]
  | case3 b0 b1 => simp [absorbWords]
  | case4 b0 b1 b2 => simp [absorbWords]
  | case5 b0 b1 b2 b3 rest ih => simp [absorbWords, ih, messageBytes_fromBE32, -messageBytes_four]

/-- Settles O29: both lists of words absorb `m`. -/
theorem absorbExpansionAbsorbsItsBytes : Obligations.AbsorbExpansionAbsorbsItsBytes := fun s m =>
  ⟨_, _, serve_eq_foldl s _, serve_eq_foldl s _,
    (block_foldl_served_absorbWords m s).trans (block_foldl_served_dinByteWords m s).symm,
    block_foldl_served_absorbWords m s⟩

/-- WDATA is laid over the word of the other fields (R61). -/
theorem ofFields_eq_or (we : Bool) (size : SizeCode) (addr : Offset) (wdata : Word) :
    TW.ofFields we size addr wdata = TW.ofFields we size addr 0#32 ||| wdata.setWidth 43 := by
  apply BitVec.eq_of_getLsbD_eq
  intro i hi
  rw [BitVec.getLsbD_or, TW.getLsbD_ofFields, TW.getLsbD_ofFields, BitVec.getLsbD_setWidth]
  by_cases h : i < 32
  · simp [h, hi]
  · simp [h, BitVec.getLsbD_of_ge wdata i (by omega)]

theorem writeWord_eq_or (r : Reg) (v : Word) : writeWord r v = writeWord r 0#32 ||| v.setWidth 43 := ofFields_eq_or ..

theorem dinHalfWord_eq_or (h : BitVec 16) : dinHalfWord h = dinHalfWord 0#16 ||| h.setWidth 43 := by
  rw [dinHalfWord, ofFields_eq_or, BitVec.setWidth_setWidth (by decide)]
  rfl

theorem dinByteWord_eq_or (b : Byte) : dinByteWord b = dinByteWord 0#8 ||| b.setWidth 43 := by
  rw [dinByteWord, ofFields_eq_or, BitVec.setWidth_setWidth (by decide)]
  rfl

/-- Settles O9: the line's operand is the word's WDATA, and the rest of the word is a constant. -/
theorem pseudoInstructionsExpandToTheirWords : Obligations.PseudoInstructionsExpandToTheirWords := by
  refine ⟨by decide, by decide, by decide, by decide, fun v => ?_, fun _ _ => rfl, fun _ _ _ => rfl, rfl, fun _ => rfl,
    fun _ _ => rfl, fun _ _ _ => rfl, fun _ _ _ _ _ => rfl, fun v => ⟨?_, rfl, ?_, rfl⟩, fun h => ?_, fun b => ?_,
    by decide, fun m => by simp [assemble, AsmLine.words], fun m v => by simp [assemble, AsmLine.words]⟩
  · rw [AsmLine.words, writeWord_eq_or]; rfl
  · rw [AsmLine.words, writeWord_eq_or]; rfl
  · rw [AsmLine.words, writeWord_eq_or]; rfl
  · rw [AsmLine.words, dinHalfWord_eq_or]; rfl
  · rw [AsmLine.words, dinByteWord_eq_or]; rfl

end Sys2Proof.Machine
end

section
/-!
SUPPORT. The CRC function (40_crc_function.md): the table form, the affine law, the residue, and the function computed through the port.
-/
namespace Sys2Proof.Machine

/-! ## The register's corner cases, splitting and the table form (R82 to R89) -/

/-- Settles O46: five closed evaluations. -/
theorem crcCornerCases : Obligations.CrcCornerCases := by
  unfold Obligations.CrcCornerCases
  decide +kernel

/-- Settles O47. -/
theorem absorbSplitsAnywhere : Obligations.AbsorbSplitsAnywhere := absorb_append

/-- Settles O48: of the word `s ^ b` the low byte goes through the loop now, and the rest, which has no bit of `b`, is only shifted. -/
theorem tableFormAgrees : Obligations.TableFormAgrees := by
  intro s b
  have hrest : (s ^^^ b.setWidth 32) >>> 8 = s >>> 8 := by
    have hbyte : b.setWidth 32 >>> 8 = 0#32 := by
      apply BitVec.eq_of_getLsbD_eq
      intro i hi
      simp
    rw [BitVec.ushiftRight_xor_distrib, hbyte, BitVec.xor_zero]
  calc crcByteByTable s b
      = crcByte 0#32 ((s ^^^ b.setWidth 32).extractLsb' 0 8) ^^^ (s ^^^ b.setWidth 32) >>> 8 := by
        rw [hrest, BitVec.xor_comm]; rfl
    _ = crcBits 8 (0#32 ^^^ (s ^^^ b.setWidth 32)) := (crcBits_eight_xor _ _).symm
    _ = crcByte s b := by rw [BitVec.zero_xor, crcByte]

/-! ## The affine law (R90) -/

/-- Absorbing is linear in the register and the message together. -/
theorem absorb_xorBytes (s t : Word) {a b : List Byte} (h : a.length = b.length) :
    absorb (s ^^^ t) (xorBytes a b) = absorb s a ^^^ absorb t b := by
  induction a generalizing s t b with
  | nil =>
    obtain rfl := List.length_eq_zero_iff.mp h.symm
    rfl
  | cons x a ih =>
    obtain ⟨y, b, rfl⟩ := List.exists_cons_of_length_eq_add_one h.symm
    calc absorb (s ^^^ t) (xorBytes (x :: a) (y :: b))
        = absorb (crcByte (s ^^^ t) (x ^^^ y)) (xorBytes a b) := rfl
      _ = absorb (crcByte s x ^^^ crcByte t y) (xorBytes a b) := by rw [crcByte_xor]
      _ = absorb s (x :: a) ^^^ absorb t (y :: b) := ih _ _ (Nat.succ.inj h)

theorem length_xorBytes {a b : List Byte} (h : a.length = b.length) : (xorBytes a b).length = b.length := by
  simp [xorBytes, h]

/-- Settles O50: the initial value and the final XOR are each a sum of three copies of themselves. -/
theorem crcIsAffine : Obligations.CrcIsAffine := by
  intro a b c hab hbc
  have hinit : initialValue = initialValue ^^^ initialValue ^^^ initialValue := by decide
  have hfinal (x y z : Word) : finalize (x ^^^ y ^^^ z) = finalize x ^^^ finalize y ^^^ finalize z := by
    have hxor : finalXor = finalXor ^^^ finalXor ^^^ finalXor := by decide
    rw [finalize, hxor, finalize, finalize, finalize]
    ac_rfl
  calc crc32 (xorBytes (xorBytes a b) c)
      = finalize (absorb (initialValue ^^^ initialValue ^^^ initialValue) (xorBytes (xorBytes a b) c)) := by
        rw [← hinit, crc32]
    _ = finalize (absorb initialValue a ^^^ absorb initialValue b ^^^ absorb initialValue c) := by
        rw [absorb_xorBytes _ _ ((length_xorBytes hab).trans hbc), absorb_xorBytes _ _ hab]
    _ = crc32 a ^^^ crc32 b ^^^ crc32 c := hfinal ..

/-! ## The residue (R94) -/

/-- The four bytes of a word, least significant first, are the word folded in whole. -/
theorem absorb_le32 (s v : Word) : absorb s (le32 v) = crcBits 32 (s ^^^ v) := by
  have hshift (i : Nat) : (v >>> i).extractLsb' 0 8 = v.extractLsb' i 8 := by
    apply BitVec.eq_of_getLsbD_eq
    intro k hk
    simp
  have hout : v >>> 32 = 0#32 := BitVec.ushiftRight_eq_zero (le_refl 32)
  symm
  calc crcBits 32 (s ^^^ v)
      = crcBits 8 (crcBits 8 (crcBits 8 (crcBits 8 (s ^^^ v)))) := by
        rw [← crcBits_add, ← crcBits_add, ← crcBits_add]
    _ = absorb s (le32 v) ^^^ v >>> 32 := by
        simp only [crcBits_eight_xor, ← BitVec.shiftRight_add, hshift, Nat.reduceAdd]
        rfl
    _ = absorb s (le32 v) := by rw [hout, BitVec.xor_zero]

/-- Settles O52: the register and the CRC of its message differ in all 32 bits, whatever the message. -/
theorem littleEndianCrcLeavesTheResidue : Obligations.LittleEndianCrcLeavesTheResidue := by
  intro m
  calc absorb initialValue (m ++ le32 (crc32 m))
      = crcBits 32 (absorb initialValue m ^^^ (absorb initialValue m ^^^ finalXor)) := by
        rw [absorb_append, absorb_le32, crc32, finalize]
    _ = crcBits 32 finalXor := by rw [← BitVec.xor_assoc, BitVec.xor_self, BitVec.zero_xor]
    _ = residue := by decide +kernel

/-! ## The function through the port (R87, R92, R95) -/

@[simp] theorem decode_cmdInit_word : decode 0x60000000001#43 = .cmdInit := by decide

/-- The word of a DIN write of `p.1` bytes with WDATA `p.2`. -/
def dinWriteWord (p : Nat × Word) : TW :=
  TW.ofFields true (if p.1 = 1 then 0b00#2 else if p.1 = 2 then 0b01#2 else 0b10#2) 0x08#8 p.2

/-- A DIN write absorbs the message bytes of its WDATA, whatever the bits above them (R43, R120). -/
theorem served_dinWriteWord {p : Nat × Word} (hp : p.1 = 1 ∨ p.1 = 2 ∨ p.1 = 4) (s : State) :
    served s (.txn (dinWriteWord p)) = s.absorbBytes (messageBytes p.1 p.2) := by
  obtain ⟨k, w⟩ := p
  apply served_txn_of_exec
  obtain rfl | rfl | rfl : k = 1 ∨ k = 2 ∨ k = 4 := hp
  · calc exec (decode (TW.ofFields true 0b00#2 0x08#8 w)) s
        = dinWrite 1 (wdataOfByte (w.extractLsb' 8 24) (w.extractLsb' 0 8)) s := by rw [decode_dinB]; rfl
      _ = .next (s.absorbBytes (messageBytes 1 w)) := by rw [wdataOfByte_extract, dinWrite_eq_absorbBytes]
  · calc exec (decode (TW.ofFields true 0b01#2 0x08#8 w)) s
        = dinWrite 2 (wdataOfHalf (w.extractLsb' 16 16) (w.extractLsb' 0 16)) s := by rw [decode_dinH]; rfl
      _ = .next (s.absorbBytes (messageBytes 2 w)) := by rw [wdataOfHalf_extract, dinWrite_eq_absorbBytes]
  · calc exec (decode (TW.ofFields true 0b10#2 0x08#8 w)) s
        = exec (.dinW w) s := by rw [decode_dinW]
      _ = .next (s.absorbBytes (messageBytes 4 w)) := exec_dinW w s

/-- DIN writes in a row absorb the concatenation of their bytes. -/
theorem block_foldl_served_dinWriteWords {writes : List (Nat × Word)}
    (h : ∀ p ∈ writes, p.1 = 1 ∨ p.1 = 2 ∨ p.1 = 4) (s : State) :
    ((transactions (writes.map dinWriteWord)).foldl served s).block =
      s.block.absorbBytes (writes.flatMap fun p => messageBytes p.1 p.2) := by
  induction writes generalizing s with
  | nil => simp
  | cons p writes ih =>
    obtain ⟨hp, hwrites⟩ := List.forall_mem_cons.mp h
    rw [List.map_cons, transactions_cons, List.foldl_cons, served_dinWriteWord hp, ih hwrites, State.absorbBytes_block,
      Block.absorbBytes_absorbBytes, List.flatMap_cons]

/-- INIT, then DIN writes: the block holds the register and the number of bytes of the message, and a read answers from it. -/
theorem serve_init_dinWriteWords_read {writes : List (Nat × Word)}
    (h : ∀ p ∈ writes, p.1 = 1 ∨ p.1 = 2 ∨ p.1 = 4) (s : State) (read : TW) :
    ∃ t b, serve s (transactions (0x60000000001#43 :: writes.map dinWriteWord ++ [read])) = .next t ∧
      t.rdata = rdataAfter (decode read) b ∧
      b.state = absorb initialValue (writes.flatMap fun p => messageBytes p.1 p.2) ∧
      b.count = BitVec.ofNat 32 (writes.flatMap fun p => messageBytes p.1 p.2).length := by
  refine ⟨_, ((transactions (writes.map dinWriteWord)).foldl served (served s (.txn 0x60000000001#43))).block,
    serve_eq_foldl s _, ?_, ?_, ?_⟩
  · rw [List.cons_append, transactions_cons, transactions_append, List.foldl_cons, List.foldl_append]
    rfl
  · rw [block_foldl_served_dinWriteWords h]
    simp [served, Block.absorbBytes]
  · rw [block_foldl_served_dinWriteWords h]
    simp [served, Block.absorbBytes]

/-- Settles O53: both reads answer from the block that INIT and the writes leave. -/
theorem resultIsTheCrcOfTheBytesWritten : Obligations.ResultIsTheCrcOfTheBytesWritten := by
  intro s writes h
  obtain ⟨t, b, hserve, hrdata, hstate, -⟩ := serve_init_dinWriteWords_read h s 0x21000000000#43
  obtain ⟨u, c, hserve', hrdata', -, hcount⟩ := serve_init_dinWriteWords_read h s 0x21800000000#43
  refine ⟨⟨t, hserve, ?_⟩, u, hserve', ?_⟩
  · rw [hrdata, decode_rdResult_word, rdataAfter_rdResult, hstate, crc32]
  · rw [hrdata', decode_rdCount_word, rdataAfter_rdCount, hcount]

/-- Settles O55: both are the finalized register, which VERIFY reads and does not change. -/
theorem resultEqualsVerifiedActual : Obligations.ResultEqualsVerifiedActual := by
  intro s
  have hresult : assemble [.rd .result] = [0x21000000000#43] := by decide
  have hactual : assemble [.verify, .rd .actual] = [0x60000000002#43, 0x21C00000000#43] := by decide
  have hverify : decode 0x60000000002#43 = .cmdVerify := by decide
  rw [hresult, hactual]
  refine ⟨_, _, serve_eq_foldl s _, serve_eq_foldl s _, ?_⟩
  simp [served, hverify]

end Sys2Proof.Machine
end

section
/-!
SUPPORT. The polynomial form of the CRC (40_crc_function.md R88): a sequence of serial bits as a polynomial over GF(2), one turn of the register's loop as
multiplication by x modulo G, and the detection of bursts (R91).
-/
namespace Sys2Proof.Machine

open Polynomial

/-! ## Serial bits as a polynomial -/

/-- The first `n` bits of `f` as a polynomial over GF(2), bit 0 the highest coefficient (R88). -/
noncomputable def serialPoly (f : Nat → Bool) (n : Nat) : (ZMod 2)[X] :=
  ∑ j ∈ Finset.range n, if f j then X ^ (n - 1 - j) else 0

theorem coeff_serialPoly (f : Nat → Bool) {n i : Nat} (hi : i < n) :
    (serialPoly f n).coeff i = if f (n - 1 - i) then 1 else 0 := by
  rw [serialPoly, finsetSum_coeff, Finset.sum_eq_single_of_mem (n - 1 - i) (Finset.mem_range.mpr (by omega))]
  · have hexp : n - 1 - (n - 1 - i) = i := by omega
    split <;> simp [hexp]
  · intro j hj hne
    have hexp : i ≠ n - 1 - j := by have := Finset.mem_range.mp hj; omega
    split <;> simp [coeff_X_pow, hexp]

theorem degree_serialPoly_lt (f : Nat → Bool) (n : Nat) : (serialPoly f n).degree < n := by
  refine (degree_sum_le _ _).trans_lt ((Finset.sup_lt_iff (WithBot.bot_lt_coe n)).mpr fun j hj => ?_)
  have hlt : n - 1 - j < n := by have := Finset.mem_range.mp hj; omega
  split
  · rw [degree_X_pow]
    exact WithBot.coe_lt_coe.mpr hlt
  · rw [degree_zero]
    exact WithBot.bot_lt_coe n

theorem serialPoly_congr {f g : Nat → Bool} {n : Nat} (h : ∀ j < n, f j = g j) : serialPoly f n = serialPoly g n :=
  Finset.sum_congr rfl fun j hj => by rw [h j (Finset.mem_range.mp hj)]

/-- Over GF(2) the coefficients are the bits, so no bit is lost. -/
theorem serialPoly_eq_zero_iff {f : Nat → Bool} {n : Nat} : serialPoly f n = 0 ↔ ∀ j < n, f j = false := by
  constructor
  · intro h j hj
    have hcoeff := coeff_serialPoly f (n := n) (i := n - 1 - j) (by omega)
    rw [h, coeff_zero, show n - 1 - (n - 1 - j) = j by omega] at hcoeff
    by_contra hne
    simp [hne] at hcoeff
  · intro h
    exact Finset.sum_eq_zero fun j hj => by simp [h j (Finset.mem_range.mp hj)]

/-- Exclusive OR of bits is addition over GF(2). -/
theorem serialPoly_xor (f g : Nat → Bool) (n : Nat) :
    serialPoly (fun j => f j ^^ g j) n = serialPoly f n + serialPoly g n := by
  rw [serialPoly, serialPoly, serialPoly, ← Finset.sum_add_distrib]
  refine Finset.sum_congr rfl fun j _ => ?_
  cases f j <;> cases g j <;> simp [CharTwo.add_self_eq_zero]

/-- The bits after the first `n` push those up by their number. -/
theorem serialPoly_append (f : Nat → Bool) (n m : Nat) :
    serialPoly f (n + m) = X ^ m * serialPoly f n + serialPoly (fun j => f (n + j)) m := by
  rw [serialPoly, Finset.sum_range_add, serialPoly, serialPoly, Finset.mul_sum]
  congr 1
  · refine Finset.sum_congr rfl fun j hj => ?_
    have hexp : n + m - 1 - j = m + (n - 1 - j) := by have := Finset.mem_range.mp hj; omega
    rw [hexp, pow_add, mul_ite, mul_zero]
  · refine Finset.sum_congr rfl fun j hj => ?_
    have hexp : n + m - 1 - (n + j) = m - 1 - j := by omega
    rw [hexp]

/-- Zero bits at the end. -/
theorem serialPoly_append_zeros {f : Nat → Bool} {n : Nat} (h : ∀ j, n ≤ j → f j = false) (m : Nat) :
    serialPoly f (n + m) = X ^ m * serialPoly f n := by
  rw [serialPoly_append, serialPoly_eq_zero_iff.mpr fun j _ => h (n + j) (by omega), add_zero]

/-- Zero bits in front. -/
theorem serialPoly_zeros_append {f : Nat → Bool} {n : Nat} (h : ∀ j < n, f j = false) (m : Nat) :
    serialPoly f (n + m) = serialPoly (fun j => f (n + j)) m := by
  rw [serialPoly_append, serialPoly_eq_zero_iff.mpr h, mul_zero, zero_add]

/-! ## The generator polynomial (R82) -/

/-- G(x) of R82. -/
noncomputable def generator : (ZMod 2)[X] :=
  X ^ 32 + X ^ 26 + X ^ 23 + X ^ 22 + X ^ 16 + X ^ 12 + X ^ 11 + X ^ 10 + X ^ 8 + X ^ 7 + X ^ 5 + X ^ 4 + X ^ 2 + X + 1

theorem generator_natDegree : generator.natDegree = 32 := by
  unfold generator
  compute_degree!

theorem generator_monic : generator.Monic := by
  unfold generator
  monicity!

theorem generator_degree : generator.degree = 32 := by
  rw [degree_eq_natDegree generator_monic.ne_zero, generator_natDegree]
  rfl

/-- G has a constant term, so it is prime to x. -/
theorem generator_isCoprime_X_pow (n : Nat) : IsCoprime generator (X ^ n) := by
  have hconst : ¬ (X : (ZMod 2)[X]) ∣ generator := by simp [X_dvd_iff, generator]
  exact ((irreducible_X.coprime_iff_not_dvd.mpr hconst).symm).pow_right

/-! ## The register modulo G (R84, R85) -/

/-- The register as a polynomial: bit 0, the next to leave, is the highest coefficient (R83). -/
noncomputable def wordPoly (s : Word) : (ZMod 2)[X] := serialPoly s.getLsbD 32

theorem wordPoly_xor (s t : Word) : wordPoly (s ^^^ t) = wordPoly s + wordPoly t := by
  rw [wordPoly, wordPoly, wordPoly, ← serialPoly_xor]
  exact serialPoly_congr fun j _ => BitVec.getLsbD_xor

/-- The reflected constant is G without its highest term. -/
theorem wordPoly_polyReflected : X ^ 32 + wordPoly polyReflected = generator := by
  simp [wordPoly, serialPoly, Finset.sum_range_succ, polyReflected, generator]
  ring

/-- A shift right multiplies by x, and the bit that leaves is the coefficient of x^32. -/
theorem X_mul_wordPoly (s : Word) :
    X * wordPoly s = (if s.getLsbD 0 then X ^ 32 else 0) + wordPoly (s >>> 1) := by
  have hbits : (s >>> 1).getLsbD = fun j => s.getLsbD (1 + j) := funext fun j => BitVec.getLsbD_ushiftRight s 1 j
  calc X * wordPoly s
      = serialPoly s.getLsbD (32 + 1) := by
        rw [serialPoly_append_zeros fun j hj => BitVec.getLsbD_of_ge s j hj, pow_one, wordPoly]
    _ = X ^ 32 * serialPoly s.getLsbD 1 + wordPoly (s >>> 1) := by
        rw [Nat.add_comm, serialPoly_append, wordPoly, hbits]
    _ = (if s.getLsbD 0 then X ^ 32 else 0) + wordPoly (s >>> 1) := by
        rw [serialPoly, Finset.sum_range_one, pow_zero, mul_ite, mul_one, mul_zero]

/-- One turn of the loop multiplies by x modulo G. -/
theorem mk_wordPoly_crcBit (s : Word) :
    AdjoinRoot.mk generator (wordPoly (crcBit s)) = AdjoinRoot.mk generator (X * wordPoly s) := by
  rw [crcBit_eq, wordPoly_xor, X_mul_wordPoly]
  cases s.getLsbD 0 with
  | false => simp [wordPoly, serialPoly]
  | true =>
    have hfold : wordPoly polyReflected = X ^ 32 + generator := by
      rw [← wordPoly_polyReflected, ← add_assoc, CharTwo.add_self_eq_zero, zero_add]
    simp [hfold, add_comm]

theorem mk_wordPoly_crcBits (n : Nat) (s : Word) :
    AdjoinRoot.mk generator (wordPoly (crcBits n s)) = AdjoinRoot.mk generator (X ^ n * wordPoly s) := by
  induction n generalizing s with
  | zero => rw [crcBits, pow_zero, one_mul]
  | succ n ih => rw [crcBits, ih, map_mul, mk_wordPoly_crcBit, ← map_mul, ← mul_assoc, ← pow_succ]

/-! ## Messages modulo G (R88) -/

/-- M(x) of R88. -/
noncomputable def messagePoly (m : List Byte) : (ZMod 2)[X] := serialPoly (serialBit m) (8 * m.length)

/-- Bit `k` of byte `i`, and false past the end. -/
theorem serialBit_eq_getLsbD (m : List Byte) (i : Nat) {k : Nat} (hk : k < 8) :
    serialBit m (8 * i + k) = (m.getD i 0#8).getLsbD k := by
  rw [serialBit, show (8 * i + k) / 8 = i by omega, show (8 * i + k) % 8 = k by omega]

theorem serialBit_eq_false_of_ge {m : List Byte} {j : Nat} (h : 8 * m.length ≤ j) : serialBit m j = false := by
  rw [serialBit, List.getD_eq_default _ _ (by omega), BitVec.getLsbD_zero]

theorem serialBit_cons_of_lt (b : Byte) (m : List Byte) {j : Nat} (hj : j < 8) : serialBit (b :: m) j = b.getLsbD j := by
  simpa using serialBit_eq_getLsbD (b :: m) 0 hj

theorem serialBit_cons_add (b : Byte) (m : List Byte) (j : Nat) : serialBit (b :: m) (8 + j) = serialBit m j := by
  rw [serialBit, show (8 + j) / 8 = j / 8 + 1 by omega, show (8 + j) % 8 = j % 8 by omega, List.getD_cons_succ, serialBit]

theorem messagePoly_cons (b : Byte) (m : List Byte) :
    messagePoly (b :: m) = X ^ (8 * m.length) * serialPoly b.getLsbD 8 + messagePoly m := by
  rw [messagePoly, List.length_cons, show 8 * (m.length + 1) = 8 + 8 * m.length by omega, serialPoly_append,
    serialPoly_congr fun j hj => serialBit_cons_of_lt b m hj, messagePoly]
  simp only [serialBit_cons_add]

/-- A byte folded into the register stands in its eight highest coefficients. -/
theorem wordPoly_setWidth (b : Byte) : wordPoly (b.setWidth 32) = X ^ 24 * serialPoly b.getLsbD 8 := by
  rw [← serialPoly_append_zeros (fun j hj => BitVec.getLsbD_of_ge b j hj) 24, wordPoly]
  exact serialPoly_congr fun j hj => by simp [hj]

/-- Absorbing `n` serial bits: the register moves up by `n`, and the message comes in below it, both times x^32. -/
theorem mk_wordPoly_absorb (s : Word) (m : List Byte) :
    AdjoinRoot.mk generator (wordPoly (absorb s m)) =
      AdjoinRoot.mk generator (X ^ 32 * messagePoly m + X ^ (8 * m.length) * wordPoly s) := by
  induction m generalizing s with
  | nil => simp [messagePoly, serialPoly]
  | cons b m ih =>
    have hbyte : AdjoinRoot.mk generator (wordPoly (crcByte s b)) =
        AdjoinRoot.mk generator (X ^ 8 * wordPoly s + X ^ 32 * serialPoly b.getLsbD 8) := by
      rw [crcByte, mk_wordPoly_crcBits, wordPoly_xor, wordPoly_setWidth]
      exact congrArg _ (by ring)
    rw [absorb_cons, ih, map_add, map_mul, map_mul, hbyte, ← map_mul, ← map_mul, ← map_add, messagePoly_cons,
      List.length_cons]
    exact congrArg _ (by ring)

/-- The initial value is L(x) of R88. -/
theorem wordPoly_initialValue : wordPoly initialValue = ∑ i ∈ Finset.range 32, X ^ i := by
  have hones : ∀ j < 32, initialValue.getLsbD j = true := by decide
  calc wordPoly initialValue
      = serialPoly (fun _ => true) 32 := serialPoly_congr hones
    _ = ∑ j ∈ Finset.range 32, X ^ (32 - 1 - j) := by simp only [serialPoly, if_true]
    _ = ∑ i ∈ Finset.range 32, X ^ i := Finset.sum_range_reflect (fun i => (X : (ZMod 2)[X]) ^ i) 32

/-- The register is congruent to the dividend modulo G and has lower degree than G, so it is the remainder. -/
theorem dividend_mod_generator (m : List Byte) :
    (X ^ 32 * messagePoly m + X ^ (8 * m.length) * ∑ i ∈ Finset.range 32, X ^ i) %ₘ generator =
      wordPoly (absorb initialValue m) := by
  rw [← wordPoly_initialValue,
    ← modByMonic_eq_of_dvd_sub generator_monic (AdjoinRoot.mk_eq_mk.mp (mk_wordPoly_absorb initialValue m)),
    modByMonic_eq_self_iff generator_monic, generator_degree]
  exact degree_serialPoly_lt _ 32

/-- The final XOR complements every bit of the register. -/
theorem getLsbD_crc32 (m : List Byte) {i : Nat} (hi : i < 32) :
    (crc32 m).getLsbD i = !(absorb initialValue m).getLsbD i := by
  have hall : finalXor = BitVec.allOnes 32 := by decide
  rw [crc32, finalize, hall, BitVec.xor_allOnes, BitVec.getLsbD_not, decide_eq_true hi, Bool.true_and]

/-- Settles O49: the remainder is the register, whose bits the final XOR complements. -/
theorem polynomialFormAgrees : Obligations.PolynomialFormAgrees := by
  intro m n x G M L R
  have hR : R = wordPoly (absorb initialValue m) := dividend_mod_generator m
  rw [hR]
  refine ⟨degree_serialPoly_lt _ 32, fun i hi => ?_⟩
  rw [getLsbD_crc32 m (by omega), wordPoly, coeff_serialPoly _ hi]
  cases (absorb initialValue m).getLsbD (31 - i) <;> simp

/-! ## Error detection (R91) -/

/-- A message is its length and its serial bits. -/
theorem eq_of_serialBit_eq {a b : List Byte} (hlen : a.length = b.length)
    (h : ∀ j, serialBit a j = serialBit b j) : a = b := by
  refine List.ext_getElem hlen fun i ha hb => BitVec.eq_of_getLsbD_eq fun k hk => ?_
  have hbit := h (8 * i + k)
  rwa [serialBit_eq_getLsbD a i hk, serialBit_eq_getLsbD b i hk, List.getD_eq_getElem _ _ ha,
    List.getD_eq_getElem _ _ hb] at hbit

/-- Messages of one length with one CRC: G divides their difference, moved up by x^32. -/
theorem generator_dvd_of_crc32_eq {a b : List Byte} (hlen : a.length = b.length) (h : crc32 a = crc32 b) :
    generator ∣ X ^ 32 * serialPoly (fun j => serialBit a j ^^ serialBit b j) (8 * a.length) := by
  have hmk := congrArg (fun s => AdjoinRoot.mk generator (wordPoly s)) (finalize_injective h)
  simp only [mk_wordPoly_absorb, hlen] at hmk
  have hdvd := AdjoinRoot.mk_eq_mk.mp hmk
  rwa [add_sub_add_right_eq_sub, ← mul_sub, CharTwo.sub_eq_add, messagePoly, messagePoly, ← hlen, ← serialPoly_xor] at hdvd

/-- Bits that are false outside a window of 32: up to a power of x, the polynomial has degree below 32, so G divides it only when it is 0. -/
theorem window_eq_false_of_generator_dvd {f : Nat → Bool} {n j : Nat} (hend : ∀ i, n ≤ i → f i = false)
    (hwindow : ∀ i, f i = true → j ≤ i ∧ i < j + 32) (hdvd : generator ∣ X ^ 32 * serialPoly f n) :
    ∀ i < 32, f (j + i) = false := by
  have hbefore : ∀ i < j, f i = false := fun i hi => Bool.eq_false_iff.mpr fun h => by have := hwindow i h; omega
  have hafter : ∀ i, j + 32 ≤ i → f i = false := fun i hi => Bool.eq_false_iff.mpr fun h => by have := hwindow i h; omega
  have hburst : X ^ (j + 32) * serialPoly f n = X ^ n * serialPoly (fun i => f (j + i)) 32 := by
    rw [← serialPoly_append_zeros hend, Nat.add_comm, serialPoly_append_zeros hafter, serialPoly_zeros_append hbefore]
  have hdvd' : generator ∣ X ^ n * serialPoly (fun i => f (j + i)) 32 := by
    rw [← hburst, pow_add, mul_assoc]
    exact hdvd.mul_left _
  have hburst_dvd := (generator_isCoprime_X_pow n).dvd_of_dvd_mul_left hdvd'
  rw [← serialPoly_eq_zero_iff]
  refine eq_zero_of_dvd_of_degree_lt hburst_dvd ?_
  rw [generator_degree]
  exact degree_serialPoly_lt _ 32

/-- Settles O51: where the CRCs are equal, no bit in the window differs, and none outside it does. -/
theorem burstErrorsAreDetected : Obligations.BurstErrorsAreDetected := by
  intro a b j hlen hne hwindow hcrc
  have hinside := window_eq_false_of_generator_dvd (f := fun i => serialBit a i ^^ serialBit b i) (j := j)
    (fun i hi => by rw [serialBit_eq_false_of_ge hi, serialBit_eq_false_of_ge (hlen ▸ hi), Bool.xor_self])
    (fun i hi => hwindow i (by simpa using hi)) (generator_dvd_of_crc32_eq hlen hcrc)
  refine hne (eq_of_serialBit_eq hlen fun i => ?_)
  by_contra hdiff
  obtain ⟨hlo, hhi⟩ := hwindow i hdiff
  have hsame := hinside (i - j) (by omega)
  rw [Nat.add_sub_cancel' hlo] at hsame
  simp [hdiff] at hsame

end Sys2Proof.Machine
end

section
/-!
SUPPORT. The control commands (41_control_commands.md): which operation each command row runs, and that no instruction but NOP and the reads leaves every
block as it was.
-/
namespace Sys2Proof.Machine

/-! ## The operation of each command -/

theorem exec_cmdNop (s : State) : exec .cmdNop s = completeWrite s.block s := rfl
theorem exec_cmdInit (s : State) : exec .cmdInit s = startMessage s := rfl
theorem exec_cmdVerify (s : State) : exec .cmdVerify s = verifyMessage s := rfl
theorem exec_cmdClrerr (s : State) : exec .cmdClrerr s = clearErrors s := rfl
theorem exec_cmdRsvd (c : Word) (s : State) : exec (.cmdRsvd c) s = raiseError .cmd false s := rfl

theorem finalize_eq_xor (r : Word) : finalize r = r ^^^ 0xFFFFFFFF#32 := rfl

/-- Anything but a DIN write, run twice in a row, ends in the state it left the first time (R50). -/
theorem exec_again_of_not_dinWrite {i : Instr} {s t : State} (hi : i.isDinWrite = false) (h : exec i s = .next t) :
    exec i t = .next t := by
  obtain rfl := exec_next_inv h
  obtain ⟨hblock, hrdata⟩ := blockAfter_idem hi s.block
  rw [exec_eq_next]
  simp only [hblock, hrdata]

/-! ## Instructions with no effect (R106) -/

/-- NOP and the legal reads are the only instructions that leave every block as it was: each other one moves a register of some block. -/
theorem eq_cmdNop_or_read_of_blockAfter_eq {i : Instr} (h : ∀ b, blockAfter i b = b) :
    i = .cmdNop ∨ (10 ≤ i.priority ∧ i.priority ≤ 15) := by
  cases i with
  | cmdNop => exact .inl rfl
  | cmdInit => simpa using congrArg Block.vdone (h { Block.reset with vdone := true })
  | cmdVerify => simpa using congrArg Block.vdone (h Block.reset)
  | cmdClrerr => simpa using congrArg Block.errCmd (h { Block.reset with errCmd := true })
  | cmdRsvd c => simpa using congrArg Block.errCmd (h Block.reset)
  | dinB x v => exact absurd (congrArg Block.count (h Block.reset)) (blockAfter_count_ne rfl _)
  | dinH x v => exact absurd (congrArg Block.count (h Block.reset)) (blockAfter_count_ne rfl _)
  | dinW w => exact absurd (congrArg Block.count (h Block.reset)) (blockAfter_count_ne rfl _)
  | wrExpect v => simpa using congrArg Block.expect (h { Block.reset with expect := v + 1#32 })
  | accIllegal a => simpa using congrArg Block.errAcc (h Block.reset)
  | _ => exact .inr (by simp [Instr.priority])

/-- The word of a legal read has WE clear (R61, R65). -/
theorem we_encode_of_read {i : Instr} (h : 10 ≤ i.priority ∧ i.priority ≤ 15) : TW.we (encode i) = false := by
  cases i with
  | rdStatus x => exact TW.we_ofFields ..
  | rdExpect x => exact TW.we_ofFields ..
  | rdResult x => exact TW.we_ofFields ..
  | rdState x => exact TW.we_ofFields ..
  | rdCount x => exact TW.we_ofFields ..
  | rdActual x => exact TW.we_ofFields ..
  | _ => simp [Instr.priority] at h

/-- Settles O20: a word that leaves every block is NOP's or a read's, and a read's word is no write. -/
theorem nopIsTheOnlyWriteWithNoEffect : Obligations.NopIsTheOnlyWriteWithNoEffect := by
  refine ⟨by decide, by decide, fun s => by rw [exec_cmdNop, completeWrite_next], fun tw hwe hkeeps => ?_⟩
  have hblock (b : Block) : blockAfter (decode tw) b = b := hkeeps (State.ofBlock b) _ (exec_eq_next _ _)
  obtain hnop | hread := eq_cmdNop_or_read_of_blockAfter_eq hblock
  · exact hnop
  · have hwe' := we_encode_of_read hread
    rw [encode_decode, hwe] at hwe'
    contradiction

/-! ## The commands' effects (R101 to R105) -/

/-- Settles O21: INIT starts a message, which sets the registers it names to the values that reset gives them. -/
theorem initStartsANewMessage : Obligations.InitStartsANewMessage :=
  ⟨decode_cmdInit_word, fun s => by rw [exec_cmdInit, startMessage_next], fun _ _ => exec_again_of_not_dinWrite rfl,
    _, startMessage_next State.reset, rfl⟩

/-- Settles O22: MATCH is the comparison of the captured value with EXPECT, and MISMATCH its negation. -/
theorem verifyComparesWithExpect : Obligations.VerifyComparesWithExpect := by
  refine ⟨by decide, fun s => ?_, fun _ _ => exec_again_of_not_dinWrite rfl⟩
  rw [exec_cmdVerify, verifyMessage_next, finalize_eq_xor]
  exact ⟨_, rfl, rfl, beq_iff_eq, bne_iff_ne⟩

/-- Settles O23: CLRERR is the way back from an error. -/
theorem clrerrClearsTheErrorBits : Obligations.ClrerrClearsTheErrorBits :=
  ⟨by decide, fun s => by rw [exec_cmdClrerr, clearErrors_next]⟩

/-- Settles O24: a value that names no command makes a well-formed reserved command, and taking its error forgets the value. -/
theorem reservedCommandSetsErrCmd : Obligations.ReservedCommandSetsErrCmd := by
  refine ⟨fun c h0 h1 h2 h3 => ?_, fun c s => by rw [exec_cmdRsvd, raiseError_cmd_next]⟩
  have hwf : (Instr.cmdRsvd c).wf = true := by simp [Instr.wf, h0, h1, h2, h3]
  simpa only [encode] using decode_encode hwf

end Sys2Proof.Machine
end

section
/-!
SUPPORT. Message input (42_data_input.md): the words of the DIN writes, what the byte 0x00 and two swapped bytes do to the register, and messages that
continue one another.
-/
namespace Sys2Proof.Machine

open Polynomial

/-! ## The words of the DIN writes (R121 to R123) -/

theorem decode_dinByteWord (b : Byte) : decode (dinByteWord b) = .dinB 0#24 b := by
  rw [dinByteWord, Reg.offset, setWidth_eq_wdataOfByte, decode_dinB, extract_ignored_wdataOfByte, extract_operand_wdataOfByte]

theorem decode_dinHalfWord (h : BitVec 16) : decode (dinHalfWord h) = .dinH 0#16 h := by
  rw [dinHalfWord, Reg.offset, setWidth_eq_wdataOfHalf, decode_dinH, extract_ignored_wdataOfHalf, extract_operand_wdataOfHalf]

/-! ## The byte 0x00 (R121) -/

/-- G has an odd number of terms, so it is prime to x + 1. -/
theorem generator_isCoprime_X_add_one_pow (n : Nat) : IsCoprime generator ((X + 1) ^ n) := by
  have hroot : ¬ (X + 1 : (ZMod 2)[X]) ∣ generator := by
    rw [← CharTwo.sub_eq_add, ← C_1, dvd_iff_isRoot, IsRoot.def]
    simp only [generator, eval_add, eval_pow, eval_X, eval_one, one_pow]
    decide
  have hirreducible : Irreducible (X + 1 : (ZMod 2)[X]) := by
    rw [← CharTwo.sub_eq_add, ← C_1]
    exact irreducible_X_sub_C 1
  exact ((hirreducible.coprime_iff_not_dvd.mpr hroot).symm).pow_right

/-- The register's polynomial has lower degree than G, and its coefficients are all of the register's bits. -/
theorem eq_zero_of_generator_dvd_wordPoly {s : Word} (h : generator ∣ wordPoly s) : s = 0#32 := by
  have hpoly : wordPoly s = 0 := eq_zero_of_dvd_of_degree_lt h (by
    rw [generator_degree]
    exact degree_serialPoly_lt _ 32)
  apply BitVec.eq_of_getLsbD_eq
  intro i hi
  rw [BitVec.getLsbD_zero]
  exact serialPoly_eq_zero_iff.mp hpoly i hi

/-- G divides x^8 + 1 = (x + 1)^8 times a fixed point of the update by 0x00. It is prime to the first factor, so it divides the second. -/
theorem crcByte_zero_eq_self_iff (s : Word) : crcByte s 0#8 = s ↔ s = 0#32 := by
  constructor
  · intro h
    have hfixed : crcBits 8 s = s := by simpa [crcByte] using h
    have hmk : AdjoinRoot.mk generator (X ^ 8 * wordPoly s) = AdjoinRoot.mk generator (wordPoly s) := by
      rw [← mk_wordPoly_crcBits, hfixed]
    have hpow : (X : (ZMod 2)[X]) ^ 8 + 1 = (X + 1) ^ 8 := by
      rw [show 8 = 2 ^ 3 from rfl, add_pow_char_pow, one_pow]
    have hdvd : generator ∣ (X + 1) ^ 8 * wordPoly s := by
      rw [← hpow, add_mul, one_mul, ← CharTwo.sub_eq_add]
      exact AdjoinRoot.mk_eq_mk.mp hmk
    exact eq_zero_of_generator_dvd_wordPoly ((generator_isCoprime_X_add_one_pow 8).dvd_of_dvd_mul_left hdvd)
  · rintro rfl
    simp [crcByte]

/-- Settles O25. -/
theorem dinByteAbsorbsOneByte : Obligations.DinByteAbsorbsOneByte := by
  refine ⟨fun b => ?_, crcByte_zero_eq_self_iff, fun x b s => exec_dinB x b s⟩
  rw [← decode_dinByteWord, dinByteWord_eq_or]
  rfl

/-! ## The order of the bytes (R122, R123) -/

/-- Swapping two bytes changes the register by the bytes' difference absorbed twice, whatever the register was. -/
theorem absorb_pair_xor_absorb_swapped (s : Word) (a b : Byte) :
    absorb s [a, b] ^^^ absorb s [b, a] = absorb 0#32 [a ^^^ b, a ^^^ b] := by
  calc absorb s [a, b] ^^^ absorb s [b, a]
      = absorb (s ^^^ s) [a ^^^ b, b ^^^ a] := (absorb_xorBytes s s (a := [a, b]) (b := [b, a]) rfl).symm
    _ = absorb 0#32 [a ^^^ b, a ^^^ b] := by rw [BitVec.xor_self, BitVec.xor_comm b a]

/-- Settles O26: "IE" and "EI" leave registers with a difference that is not 0. -/
theorem dinHalfAbsorbsTwoBytes : Obligations.DinHalfAbsorbsTwoBytes := by
  refine ⟨fun h => ?_, fun s heq => ?_, fun x h s => exec_dinH x h s⟩
  · rw [← decode_dinHalfWord, dinHalfWord_eq_or]
    rfl
  · have hdiff : absorb 0#32 [0x49#8 ^^^ 0x45#8, 0x49#8 ^^^ 0x45#8] = 0#32 := by
      rw [← absorb_pair_xor_absorb_swapped s]
      exact BitVec.xor_eq_zero_iff.mpr heq
    exact absurd hdiff (by decide +kernel)

/-- Settles O27. -/
theorem dinWordAbsorbsFourBytes : Obligations.DinWordAbsorbsFourBytes := by
  refine ⟨fun w => ?_, exec_dinW⟩
  rw [← decode_dinW, ofFields_eq_or]
  rfl

/-! ## Messages without a new INIT (R125) -/

@[simp] theorem decode_expectWord (v : Word) : decode (writeWord .expect v) = .wrExpect v := decode_wrExpect v
@[simp] theorem decode_verifyWord : decode (writeWord .ctrl 2#32) = .cmdVerify := decode_command 2#32
@[simp] theorem decode_resultWord : decode (readWord .result) = .rdResult 0#32 := decode_rdResult 0#32

theorem served_txn_block (s : State) (tw : TW) : (served s (.txn tw)).block = blockAfter (decode tw) s.block := rfl

/-- An INIT and a reset both start a message. -/
theorem served_start_state {start : Input} (h : start = .txn 0x60000000001#43 ∨ start = .rst) (s : State) :
    (served s start).block.state = initialValue := by
  obtain rfl | rfl := h
  · rw [served_txn_block, decode_cmdInit_word, blockAfter_cmdInit]
  · rfl

/-- ABSORB takes the register on over its bytes (R85). -/
theorem state_foldl_served_absorbWords (m : List Byte) (s : State) :
    ((transactions (absorbWords m)).foldl served s).block.state = absorb s.block.state m := by
  rw [block_foldl_served_absorbWords, Block.absorbBytes]

/-- RD RESULT returns the finalized register. -/
theorem served_resultWord_rdata (s : State) : (served s (.txn (readWord .result))).rdata = some (finalize s.block.state) := by
  simp [served]

/-- Settles O54: the register goes on from `a` to `b`, and neither writing EXPECT nor VERIFY moves it. -/
theorem messagesContinueWithoutInit : Obligations.MessagesContinueWithoutInit := by
  intro s start a b v hstart
  have hinit := served_start_state hstart s
  refine ⟨⟨_, serve_eq_foldl _ _, ?_⟩, _, serve_eq_foldl _ _, ?_⟩
  · simp [assemble, AsmLine.words, served_resultWord_rdata, state_foldl_served_absorbWords, hinit, crc32, absorb_append]
  · simp [assemble, AsmLine.words, served_resultWord_rdata, state_foldl_served_absorbWords, served_txn_block, hinit, crc32,
      absorb_append]

end Sys2Proof.Machine
end

section
/-!
SUPPORT. Register access (43_register_access.md): the legal words as rows 1 to 15, the EXPECT write, the reads as operations that change RDATA alone, and
the illegal access.
-/
namespace Sys2Proof.Machine

/-! ## The legal words (R147, R148) -/

/-- Settles O5: a legal word decodes to a row before the last, and an illegal one to the last. -/
theorem legalWordsAreRows1To15 : Obligations.LegalWordsAreRows1To15 := by
  intro tw
  refine ⟨⟨fun h => (decode_priority_of_legal h).1, fun hle => ?_⟩, (accepted_eq_legal tw).symm⟩
  by_contra hillegal
  rw [decode_of_not_legal (Bool.eq_false_iff.mpr hillegal)] at hle
  simp [Instr.priority] at hle

/-! ## The EXPECT write (R140) -/

theorem exec_wrExpect (v : Word) (s : State) : exec (.wrExpect v) s = completeWrite { s.block with expect := v } s := rfl

/-- DIN alone takes a transfer that is not 4 bytes wide (R48, R147). -/
theorem legal_eq_false_of_narrow {tw : TW} (haddr : TW.addr tw ≠ 0x08#8) (hsize : TW.size tw ≠ 0b10#2) : legal tw = false := by
  simp [legal, haddr, hsize]

/-- Settles O30. -/
theorem writeExpectSetsExpect : Obligations.WriteExpectSetsExpect := by
  refine ⟨fun v => ?_, fun tw _ haddr hsize => ?_, fun v s => ?_⟩
  · rw [← decode_wrExpect, ofFields_eq_or]
    rfl
  · exact decode_of_not_legal (legal_eq_false_of_narrow (by rw [haddr]; decide) hsize)
  · rw [exec_wrExpect, completeWrite_next]
    exact ⟨_, rfl, rfl⟩

/-! ## The reads (R141 to R146) -/

/-- An instruction that leaves the block as it was sets RDATA and nothing else (R50). -/
theorem exec_of_blockAfter_eq {i : Instr} {s : State} (h : blockAfter i s.block = s.block) :
    exec i s = .next { s with rdata := rdataAfter i s.block } := by
  rw [exec_eq_next, h]

/-- Settles O31: the word returned is STATUS, whose bits are the flags. -/
theorem readStatusReturnsTheFlags : Obligations.ReadStatusReturnsTheFlags := by
  refine ⟨decode_rdStatus_word, fun x s => ⟨s.block.status, exec_of_blockAfter_eq (blockAfter_rdStatus x _), ?_⟩⟩
  simp only [Block.getLsbD_status]
  refine ⟨rfl, rfl, rfl, rfl, rfl, fun j h0 h1 h2 h8 h9 => ?_⟩
  rw [if_neg h0, if_neg h1, if_neg h2, if_neg h8, if_neg h9]

/-- Settles O32: the five reads leave the block, and each returns its register. -/
theorem readsReturnTheirRegisters : Obligations.ReadsReturnTheirRegisters :=
  ⟨decode_rdExpect_word, decode_rdResult_word, decode_rdState_word, decode_rdCount_word, decode_rdActual_word, fun x _ =>
    ⟨exec_of_blockAfter_eq (blockAfter_rdExpect x _), exec_of_blockAfter_eq (blockAfter_rdResult x _),
      exec_of_blockAfter_eq (blockAfter_rdState x _), exec_of_blockAfter_eq (blockAfter_rdCount x _),
      exec_of_blockAfter_eq (blockAfter_rdActual x _)⟩⟩

/-! ## The illegal access (R147) -/

/-- Settles O33: taking ERR_ACC sets its bit, and returns 0 to a read. -/
theorem illegalAccessSetsErrAcc : Obligations.IllegalAccessSetsErrAcc := by
  refine ⟨fun _ => decode_of_not_legal, fun a s => ?_⟩
  rw [exec_accIllegal, raiseError_acc_next]
  exact ⟨_, rfl, rfl, fun hread => by simp [hread]⟩

end Sys2Proof.Machine
end

section
/-!
SUPPORT. The chunk procedures (44_chunk_procedures.md): what generation and verification leave in the block, a record's fields, one flipped bit, and the CRC
appended big-endian.
-/
namespace Sys2Proof.Machine

/-! ## The procedures through the port (R161, R163) -/

@[simp] theorem decode_initWord : decode (writeWord .ctrl 1#32) = .cmdInit := decode_command 1#32
@[simp] theorem decode_statusWord : decode (readWord .status) = .rdStatus 0#32 := decode_rdStatus 0#32
@[simp] theorem decode_actualWord : decode (readWord .actual) = .rdActual 0#32 := decode_rdActual 0#32

/-- Settles O56: RD RESULT answers from the register that INIT and the two ABSORBs leave. -/
theorem generationReturnsTheChunkCrc : Obligations.GenerationReturnsTheChunkCrc := by
  intro s type data
  refine ⟨_, serve_eq_foldl s _, ?_⟩
  simp [generationLines, assemble, AsmLine.words, served_resultWord_rdata, state_foldl_served_absorbWords, served_txn_block,
    chunkMessage, crc32, absorb_append]

/-- The block after the check of the message `m` against the stored CRC `v`: INIT, ABSORB, LDEXP, VERIFY (R163). -/
def Block.afterCheck (b : Block) (m : List Byte) (v : Word) : Block :=
  { b with
    state := absorb initialValue m
    count := BitVec.ofNat 32 m.length
    expect := v
    actual := crc32 m
    vdone := true
    matchBit := crc32 m == v
    mismatchBit := crc32 m != v }

@[simp] theorem Block.afterCheck_actual (b : Block) (m : List Byte) (v : Word) : (b.afterCheck m v).actual = crc32 m := rfl
@[simp] theorem Block.afterCheck_vdone (b : Block) (m : List Byte) (v : Word) : (b.afterCheck m v).vdone = true := rfl
@[simp] theorem Block.afterCheck_matchBit (b : Block) (m : List Byte) (v : Word) : (b.afterCheck m v).matchBit = (crc32 m == v) := rfl
@[simp] theorem Block.afterCheck_mismatchBit (b : Block) (m : List Byte) (v : Word) :
    (b.afterCheck m v).mismatchBit = (crc32 m != v) := rfl

/-- A mismatch is reported as the stored and the computed CRC (R104). -/
theorem crcMismatch_afterCheck (b : Block) (m : List Byte) (v : Word) :
    crcMismatch (b.afterCheck m v) = if v = crc32 m then none else some (v, crc32 m) := by
  by_cases h : v = crc32 m
  · rw [if_pos h, crcMismatch, Block.afterCheck_mismatchBit, h, bne_self_eq_false]
    rfl
  · rw [if_neg h, crcMismatch, Block.afterCheck_mismatchBit, if_pos (bne_iff_ne.mpr (Ne.symm h))]
    rfl

theorem block_foldl_served_check (s : State) (m : List Byte) (v : Word) :
    ((transactions (assemble [.init, .absorb m, .ldexp v, .verify])).foldl served s).block = s.block.afterCheck m v := by
  simp [assemble, AsmLine.words, served_txn_block, block_foldl_served_absorbWords, Block.afterCheck, Block.absorbBytes,
    Block.setOutcome, Block.clearOutcome, crc32]

/-- Verification: the two reads at its end answer from the block that the check leaves, and leave it. -/
theorem serve_verificationLines (s : State) (r : List Byte) :
    ∃ t u, serve s (transactions (assemble (verificationLines r))) = .next t ∧
      serve s (transactions (assemble ((verificationLines r).take 5))) = .next u ∧
      t.block = s.block.afterCheck (recordMessage r) (recordStored r) ∧
      t.rdata = some t.block.actual ∧ u.rdata = some t.block.status := by
  have hlines : assemble (verificationLines r) =
      assemble [.init, .absorb (recordMessage r), .ldexp (recordStored r), .verify] ++ [readWord .status, readWord .actual] := by
    simp [verificationLines, assemble, AsmLine.words]
  have htake : assemble ((verificationLines r).take 5) =
      assemble [.init, .absorb (recordMessage r), .ldexp (recordStored r), .verify] ++ [readWord .status] := by
    simp [verificationLines, assemble, AsmLine.words]
  rw [hlines, htake]
  refine ⟨_, _, serve_eq_foldl s _, serve_eq_foldl s _, ?_⟩
  simp [List.foldl_append, served, block_foldl_served_check]

/-- Settles O57. -/
theorem verificationTellsWhetherTheCrcMatches : Obligations.VerificationTellsWhetherTheCrcMatches := by
  intro s r _
  obtain ⟨t, u, ht, hu, hblock, hactual, hstatus⟩ := serve_verificationLines s r
  refine ⟨t, ht, ?_, ?_, ?_, ?_, ?_, u, hu, hstatus⟩
  · rw [hactual, hblock, Block.afterCheck_actual]
  · rw [hblock, Block.afterCheck_vdone]
  · rw [hblock, Block.afterCheck_matchBit, beq_iff_eq, eq_comm]
  · rw [hblock, Block.afterCheck_mismatchBit, bne_iff_ne, ne_comm]
  · rw [hblock, crcMismatch_afterCheck]

/-! ## The fields of a record (R41, R161, R163) -/

/-- A word is put together from its own bytes. -/
theorem fromBE32_be32 (v : Word) :
    fromBE32 (v.extractLsb' 24 8) (v.extractLsb' 16 8) (v.extractLsb' 8 8) (v.extractLsb' 0 8) = v := by
  rw [fromBE32, BitVec.extractLsb'_append_extractLsb'_eq_extractLsb' (by decide),
    BitVec.extractLsb'_append_extractLsb'_eq_extractLsb' (by decide),
    BitVec.extractLsb'_append_extractLsb'_eq_extractLsb' (by decide)]
  exact BitVec.extractLsb'_eq_self

/-- A record laid out with the length field `n`, the message `m` and the stored CRC `v` (R41). -/
def recordOf (n : Nat) (m : List Byte) (v : Word) : List Byte := be32 (BitVec.ofNat 32 n) ++ m ++ be32 v

theorem chunkRecord_eq_recordOf (type data : List Byte) (crc : Word) :
    chunkRecord type data crc = recordOf data.length (chunkMessage type data) crc := by
  simp only [chunkRecord, recordOf, chunkMessage, List.append_assoc]

@[simp] theorem length_be32 (v : Word) : (be32 v).length = 4 := rfl

/-- The word that starts where `a` ends is the one laid out there. -/
theorem recordWord_append_be32 (a b : List Byte) (v : Word) : recordWord (a ++ be32 v ++ b) a.length = v := by
  simp [recordWord, be32, fromBE32_be32]

theorem recordLength_recordOf {n : Nat} (m : List Byte) (v : Word) (hn : n < 2 ^ 32) : recordLength (recordOf n m v) = n := by
  have hword : recordWord (recordOf n m v) 0 = BitVec.ofNat 32 n := by
    simpa [recordOf] using recordWord_append_be32 [] (m ++ be32 v) (BitVec.ofNat 32 n)
  rw [recordLength, hword, BitVec.toNat_ofNat, Nat.mod_eq_of_lt hn]

theorem recordMessage_recordOf {n : Nat} {m : List Byte} (v : Word) (hn : n < 2 ^ 32) (hm : m.length = 4 + n) :
    recordMessage (recordOf n m v) = m := by
  rw [recordMessage, recordLength_recordOf m v hn, ← hm, recordOf, List.append_assoc, List.drop_left' (length_be32 _),
    List.take_left]

theorem recordStored_recordOf {n : Nat} {m : List Byte} (v : Word) (hn : n < 2 ^ 32) (hm : m.length = 4 + n) :
    recordStored (recordOf n m v) = v := by
  have hstart : (be32 (BitVec.ofNat 32 n) ++ m).length = 8 + n := by
    rw [List.length_append, length_be32, hm]
    omega
  have hword := recordWord_append_be32 (be32 (BitVec.ofNat 32 n) ++ m) [] v
  rw [List.append_nil, hstart] at hword
  rw [recordStored, recordLength_recordOf m v hn, recordOf, hword]

theorem recordFramed_recordOf {n : Nat} {m : List Byte} (v : Word) (hn : n < 2 ^ 32) (hm : m.length = 4 + n) :
    recordFramed (recordOf n m v) = true := by
  rw [recordFramed, recordLength_recordOf m v hn, beq_iff_eq, recordOf]
  simp only [List.length_append, length_be32, hm]
  omega

/-- Verification of a record laid out by its fields checks its message against its stored CRC. -/
theorem serve_verificationLines_recordOf (s : State) {n : Nat} {m : List Byte} (v : Word) (hn : n < 2 ^ 32)
    (hm : m.length = 4 + n) :
    ∃ t, serve s (transactions (assemble (verificationLines (recordOf n m v)))) = .next t ∧ t.block = s.block.afterCheck m v := by
  obtain ⟨t, _, ht, _, hblock, _, _⟩ := serve_verificationLines s (recordOf n m v)
  rw [recordMessage_recordOf v hn hm, recordStored_recordOf v hn hm] at hblock
  exact ⟨t, ht, hblock⟩

theorem length_chunkMessage {type data : List Byte} (htype : type.length = 4) :
    (chunkMessage type data).length = 4 + data.length := by
  rw [chunkMessage, List.length_append, htype]

/-- Settles O58: the fields that verification reads back are those that generation wrote. -/
theorem generatedRecordsVerify : Obligations.GeneratedRecordsVerify := by
  intro s type data htype hdata r
  have hlen := length_chunkMessage (data := data) htype
  have hr : r = recordOf data.length (chunkMessage type data) (crc32 (chunkMessage type data)) := chunkRecord_eq_recordOf ..
  obtain ⟨t, ht, hblock⟩ := serve_verificationLines_recordOf s (crc32 (chunkMessage type data)) hdata hlen
  rw [hr]
  refine ⟨recordFramed_recordOf _ hdata hlen, t, ht, ?_⟩
  simp [hblock]

/-! ## One flipped bit (R170) -/

/-- The bytes with bit `k` of byte `p` flipped. -/
def flipBit (m : List Byte) (p k : Nat) : List Byte := m.modify p fun b => b ^^^ (1#8 <<< k)

@[simp] theorem length_flipBit (m : List Byte) (p k : Nat) : (flipBit m p k).length = m.length := List.length_modify ..

theorem flipBit_append_of_lt {a : List Byte} {p : Nat} (b : List Byte) (k : Nat) (h : p < a.length) :
    flipBit (a ++ b) p k = flipBit a p k ++ b := by
  induction a generalizing p with
  | nil => simp at h
  | cons x a ih =>
    cases p with
    | zero => rfl
    | succ p => exact congrArg (x :: ·) (ih (Nat.lt_of_succ_lt_succ h))

theorem flipBit_append_add (a b : List Byte) (p k : Nat) : flipBit (a ++ b) (a.length + p) k = a ++ flipBit b p k :=
  List.modifyTailIdx_add ..

theorem getLsbD_flip_ne_iff (b : Byte) {k : Nat} (hk : k < 8) (i : Nat) :
    (b ^^^ (1#8 <<< k)).getLsbD i ≠ b.getLsbD i ↔ i = k := by
  have hbit : (1#8 <<< k).getLsbD i = (decide (k < 8) && decide (k = i)) := BitVec.getLsbD_twoPow k i
  rw [BitVec.getLsbD_xor, hbit, decide_eq_true hk, Bool.true_and]
  by_cases h : k = i
  · simp [h]
  · simp [h, Ne.symm h]

/-- The flipped bit is the only serial bit that differs (R88). -/
theorem serialBit_flipBit_ne_iff {m : List Byte} {p k : Nat} (hp : p < m.length) (hk : k < 8) (j : Nat) :
    serialBit (flipBit m p k) j ≠ serialBit m j ↔ j = 8 * p + k := by
  rw [serialBit, serialBit, List.getD_eq_getElem?_getD, List.getD_eq_getElem?_getD, flipBit]
  by_cases h : p = j / 8
  · subst h
    rw [List.getElem?_modify_eq, List.getElem?_eq_getElem hp]
    refine (getLsbD_flip_ne_iff _ hk _).trans ?_
    omega
  · rw [List.getElem?_modify_ne _ _ h]
    simp only [ne_eq, not_true_eq_false, false_iff]
    omega

theorem flipBit_ne {m : List Byte} {p k : Nat} (hp : p < m.length) (hk : k < 8) : flipBit m p k ≠ m := fun h =>
  (serialBit_flipBit_ne_iff hp hk (8 * p + k)).mpr rfl (by rw [h])

/-- A flipped bit is a burst of one (R91). -/
theorem crc32_flipBit_ne {m : List Byte} {p k : Nat} (hp : p < m.length) (hk : k < 8) : crc32 (flipBit m p k) ≠ crc32 m :=
  burstErrorsAreDetected (flipBit m p k) m (8 * p + k) (length_flipBit m p k) (flipBit_ne hp hk) fun i hi => by
    have hbit := (serialBit_flipBit_ne_iff hp hk i).mp hi
    omega

theorem exists_be32_eq {l : List Byte} (h : l.length = 4) : ∃ v, be32 v = l := by
  obtain ⟨b0, b1, b2, b3, rfl⟩ := List.length_eq_four.mp h
  exact ⟨fromBE32 b0 b1 b2 b3, be32_fromBE32 b0 b1 b2 b3⟩

/-- A bit flipped behind the length field leaves a record with another message, or with another stored CRC. -/
theorem flipBit_recordOf {n : Nat} {m : List Byte} (v : Word) {p k : Nat} (hm : m.length = 4 + n) (hp : 4 ≤ p)
    (hend : p < 12 + n) (hk : k < 8) :
    (∃ q, q < m.length ∧ flipBit (recordOf n m v) p k = recordOf n (flipBit m q k) v) ∨
      ∃ w, w ≠ v ∧ flipBit (recordOf n m v) p k = recordOf n m w := by
  obtain ⟨q, rfl⟩ := Nat.exists_eq_add_of_le hp
  have hskip : flipBit (recordOf n m v) (4 + q) k = be32 (BitVec.ofNat 32 n) ++ flipBit (m ++ be32 v) q k := by
    rw [recordOf, List.append_assoc, ← flipBit_append_add, length_be32]
  rw [hskip]
  rcases Nat.lt_or_ge q m.length with hq | hq
  · refine .inl ⟨q, hq, ?_⟩
    rw [flipBit_append_of_lt _ _ hq, recordOf, List.append_assoc]
  · obtain ⟨i, rfl⟩ := Nat.exists_eq_add_of_le hq
    have hi : i < (be32 v).length := by rw [length_be32]; omega
    obtain ⟨w, hw⟩ := exists_be32_eq ((length_flipBit (be32 v) i k).trans (length_be32 v))
    refine .inr ⟨w, ?_, ?_⟩
    · rintro rfl
      exact flipBit_ne hi hk hw.symm
    · rw [flipBit_append_add, ← hw, recordOf, List.append_assoc]

/-- Settles O59: the message's CRC changes and the stored one does not, or the other way round. -/
theorem oneFlippedBitIsAMismatch : Obligations.OneFlippedBitIsAMismatch := by
  intro s type data p k htype hdata hp hend hk r
  have hlen := length_chunkMessage (data := data) htype
  have hr : r = flipBit (recordOf data.length (chunkMessage type data) (crc32 (chunkMessage type data))) p k := by
    rw [← chunkRecord_eq_recordOf, flipBit]
  rw [hr]
  obtain ⟨q, hq, hflip⟩ | ⟨w, hw, hflip⟩ := flipBit_recordOf (crc32 (chunkMessage type data)) hlen hp hend hk
  · obtain ⟨t, ht, hblock⟩ :=
      serve_verificationLines_recordOf s (crc32 (chunkMessage type data)) hdata ((length_flipBit _ q k).trans hlen)
    rw [hflip]
    refine ⟨t, ht, ?_⟩
    simp [hblock, crc32_flipBit_ne hq hk]
  · obtain ⟨t, ht, hblock⟩ := serve_verificationLines_recordOf s w hdata hlen
    rw [hflip]
    refine ⟨t, ht, ?_⟩
    simp [hblock, hw.symm]

/-! ## The CRC appended big-endian (R169) -/

/-- The register's loop loses nothing. -/
theorem crcBits_injective {n : Nat} {s t : Word} (h : crcBits n s = crcBits n t) : s = t :=
  BitVec.xor_eq_zero_iff.mp (crcBits_eq_zero (n := n) (by rw [crcBits_xor, h, BitVec.xor_self]))

/-- Four bytes absorbed from one register into one register are the same four bytes. -/
theorem absorb_le32_injective {s v w : Word} (h : absorb s (le32 v) = absorb s (le32 w)) : v = w := by
  rw [absorb_le32, absorb_le32] at h
  exact (BitVec.xor_right_inj s).mp (crcBits_injective h)

/-- Big-endian bytes are the little-endian bytes of the word with its bytes in reverse order. -/
theorem be32_eq_le32 (v : Word) :
    be32 v = le32 (fromBE32 (v.extractLsb' 0 8) (v.extractLsb' 8 8) (v.extractLsb' 16 8) (v.extractLsb' 24 8)) := by
  have hreverse (w : Word) : le32 w = (be32 w).reverse := rfl
  rw [hreverse, be32_fromBE32]
  rfl

/-- Settles O60: the residue is what the little-endian CRC leaves, and no other four bytes leave it too. -/
theorem bigEndianCrcLeavesNoFixedResidue : Obligations.BigEndianCrcLeavesNoFixedResidue := by
  refine ⟨fun m => ?_, by decide +kernel, by decide +kernel⟩
  rw [← littleEndianCrcLeavesTheResidue m, absorb_append, absorb_append]
  refine ⟨fun h => ?_, congrArg _⟩
  rw [be32_eq_le32] at h ⊢
  rw [absorb_le32_injective h]

end Sys2Proof.Machine
end

section
/-!
SUPPORT. Exceptions (60_exceptions.md): the words that raise each error, told from their fields, what each error bit does under every instruction, and the
error bits along a host's sequence of transactions.
-/
namespace Sys2Proof

/-! ## The words that raise an error (R181, R182) -/

/-- The conditions of R147, negated one by one: the causes of ERR_ACC. -/
theorem legal_eq_false_iff (tw : TW) :
    legal tw = false ↔
      TW.size tw = 0b11#2 ∨ (TW.addr tw).extractLsb' 0 2 ≠ 0b00#2 ∨ 0x1C#8 < TW.addr tw ∨
      (TW.we tw = false ∧ (TW.addr tw = 0x00#8 ∨ TW.addr tw = 0x08#8)) ∨
      (TW.we tw = true ∧ (TW.addr tw = 0x04#8 ∨ TW.addr tw = 0x10#8 ∨ TW.addr tw = 0x14#8 ∨ TW.addr tw = 0x18#8 ∨
        TW.addr tw = 0x1C#8)) ∨
      (TW.addr tw ≠ 0x08#8 ∧ TW.size tw ≠ 0b10#2) := by
  simp only [legal, Bool.and_eq_false_iff, bne_eq_false_iff_eq, beq_eq_false_iff_ne, decide_eq_false_iff_not, BitVec.not_le,
    Bool.not_eq_false', Bool.and_eq_true, Bool.not_eq_true', Bool.or_eq_true, Bool.or_eq_false_iff, beq_iff_eq, or_assoc, ne_eq]

theorem decode_eq_accIllegal_iff (tw a : TW) : decode tw = .accIllegal a ↔ legal tw = false ∧ tw = a := by
  cases h : legal tw with
  | false => simp [decode_of_not_legal h]
  | true => simp [decode_ne_accIllegal_of_legal h a]

/-- The command values the spec names are 0 to 3 (R100, R105). -/
theorem decodeCommand_eq_cmdRsvd_iff (w c : Word) : decodeCommand w = .cmdRsvd c ↔ 3#32 < w ∧ w = c := by
  have hnamed : 3#32 < w ↔ w ≠ 0#32 ∧ w ≠ 1#32 ∧ w ≠ 2#32 ∧ w ≠ 3#32 := by
    constructor <;> intro h <;> bv_omega
  rw [hnamed, decodeCommand]
  split_ifs <;> simp_all

theorem decode_eq_cmdRsvd_iff (tw : TW) (c : Word) :
    decode tw = .cmdRsvd c ↔
      (TW.we tw = true ∧ TW.addr tw = 0x00#8 ∧ TW.size tw = 0b10#2 ∧ 3#32 < TW.wdata tw) ∧ TW.wdata tw = c := by
  cases tw using word_cases with
  | illegal a ha =>
    rw [decode_of_not_legal ha]
    refine iff_of_false (by simp) ?_
    rintro ⟨⟨hwe, haddr, hsize, -⟩, -⟩
    simp [legal, hwe, haddr, hsize] at ha
  | command w => simp [decode_command, decodeCommand_eq_cmdRsvd_iff]
  | _ =>
    simp [decode_dinB, decode_dinH, decode_dinW, decode_wrExpect, decode_rdStatus, decode_rdExpect, decode_rdResult,
      decode_rdState, decode_rdCount, decode_rdActual]

/-- The rows that raise an error: a reserved command and an illegal access (R181, R182). -/
def Instr.raisesError : Instr → Bool
  | .cmdRsvd _ => true
  | .accIllegal _ => true
  | _ => false

end Sys2Proof

namespace Sys2Proof.Machine

theorem isMisuse_eq_raisesError (tw : TW) : isMisuse tw = (decode tw).raisesError := by
  rw [isMisuse]
  cases decode tw <;> rfl

/-- A misused word is a reserved command or an illegal access. -/
theorem cmdRsvd_or_accIllegal_of_isMisuse {tw : TW} (h : isMisuse tw = true) :
    (∃ c, decode tw = .cmdRsvd c) ∨ decode tw = .accIllegal tw := by
  rw [isMisuse_eq_raisesError] at h
  cases hdecode : decode tw with
  | cmdRsvd c => exact .inl ⟨c, rfl⟩
  | accIllegal a => exact .inr (by rw [((decode_eq_accIllegal_iff tw a).mp hdecode).2])
  | _ => simp [hdecode, Instr.raisesError] at h

/-! ## Completion (R8, R180) -/

/-- Settles O13: with no input waiting the state stays, and otherwise the oldest input is served. -/
theorem everyStepCompletes : Obligations.EveryStepCompletes := by
  intro s
  cases hin : s.inputs with
  | nil => exact ⟨s, step_nil hin, hin⟩
  | cons x rest => exact ⟨_, step_cons hin, served_inputs _ x⟩

/-- Settles O12: a reserved command is a write, and an illegal access returns 0 where it is a read. -/
theorem everyTransactionCompletes : Obligations.EveryTransactionCompletes := by
  intro s tw rest hin
  refine ⟨_, step_cons hin, rfl, rfl, fun hmisuse => ?_⟩
  obtain ⟨c, hrsvd⟩ | hillegal := cmdRsvd_or_accIllegal_of_isMisuse hmisuse
  · obtain ⟨⟨hwrite, -⟩, -⟩ := (decode_eq_cmdRsvd_iff tw c).mp hrsvd
    refine ⟨.inl ?_, fun hread => by simp [hwrite] at hread⟩
    rw [served_txn_block, hrsvd, blockAfter_cmdRsvd, Block.setError]
  · obtain ⟨t, ht, heq, hzero⟩ := exec_decode_of_not_legal ((decode_eq_accIllegal_iff tw tw).mp hillegal).1 { s with inputs := rest }
    rw [served_txn_of_exec ht]
    exact ⟨.inr (by rw [heq]), hzero⟩

/-! ## The causes of each error (R181, R182, R186) -/

theorem blockAfter_of_not_legal {tw : TW} (h : legal tw = false) (b : Block) :
    blockAfter (decode tw) b = { b with errAcc := true } := by
  rw [decode_of_not_legal h, blockAfter_accIllegal, Block.setError]

/-- A legal word does not set ERR_ACC. -/
theorem errAcc_of_blockAfter_of_legal {tw : TW} (h : legal tw = true) {b : Block}
    (hset : (blockAfter (decode tw) b).errAcc = true) : b.errAcc = true := by
  by_cases hclrerr : decode tw = .cmdClrerr
  · simp [hclrerr] at hset
  · rwa [blockAfter_errAcc (decode_ne_accIllegal_of_legal h) hclrerr] at hset

/-- What is no reserved command does not set ERR_CMD. -/
theorem errCmd_of_blockAfter {i : Instr} (h : ∀ c, i ≠ .cmdRsvd c) {b : Block}
    (hset : (blockAfter i b).errCmd = true) : b.errCmd = true := by
  by_cases hclrerr : i = .cmdClrerr
  · simp [hclrerr] at hset
  · rwa [blockAfter_errCmd h hclrerr] at hset

/-- Settles O38: the causes of ERR_ACC make a word illegal, the cause of ERR_CMD makes it a reserved command. -/
theorem eachErrorHasItsCauses : Obligations.EachErrorHasItsCauses := by
  intro tw s t h access command
  obtain rfl := exec_next_inv h
  refine ⟨Block.getLsbD_status _ 8, Block.getLsbD_status _ 9, fun haccess => ?_, fun hcommand => ?_, fun haccess => ?_,
    fun hcommand => ?_⟩
  · exact blockAfter_of_not_legal ((legal_eq_false_iff tw).mpr haccess) s.block
  · rw [(decode_eq_cmdRsvd_iff tw _).mpr ⟨hcommand, rfl⟩, blockAfter_cmdRsvd, Block.setError]
  · have hlegal : legal tw = true := Bool.eq_true_of_not_eq_false fun hfalse => haccess ((legal_eq_false_iff tw).mp hfalse)
    exact errAcc_of_blockAfter_of_legal hlegal
  · exact errCmd_of_blockAfter fun c hrsvd => hcommand ((decode_eq_cmdRsvd_iff tw c).mp hrsvd).1

/-- Settles O39: a word that sets ERR_ACC is illegal, and an illegal word leaves ERR_CMD. -/
theorem oneErrorPerTransaction : Obligations.OneErrorPerTransaction := by
  intro tw s t h
  obtain rfl := exec_next_inv h
  have hillegal (hfalse : legal tw = false) :
      (blockAfter (decode tw) s.block).errAcc = true ∧ (blockAfter (decode tw) s.block).errCmd = s.block.errCmd := by
    rw [blockAfter_of_not_legal hfalse]
    exact ⟨rfl, rfl⟩
  refine ⟨?_, hillegal⟩
  rintro ⟨⟨hcmd, hcmd'⟩, hacc, hacc'⟩
  cases hlegal : legal tw with
  | false => simp [(hillegal hlegal).2, hcmd] at hcmd'
  | true => simp [errAcc_of_blockAfter_of_legal hlegal hacc'] at hacc

/-! ## Error bits are sticky and lock nothing (R188) -/

/-- Everything but CLRERR leaves a set error bit set. -/
theorem blockAfter_keeps_errors {i : Instr} (h : i ≠ .cmdClrerr) (b : Block) :
    (b.errCmd = true → (blockAfter i b).errCmd = true) ∧ (b.errAcc = true → (blockAfter i b).errAcc = true) := by
  cases i with
  | cmdClrerr => exact absurd rfl h
  | cmdRsvd c => exact ⟨fun _ => rfl, id⟩
  | accIllegal a => exact ⟨id, fun _ => rfl⟩
  | _ => exact ⟨id, id⟩

/-- The block with its error bits set to the given values. -/
def Block.withErrors (b : Block) (ec ea : Bool) : Block := { b with errCmd := ec, errAcc := ea }

/-- No instruction lets the error bits into another part of the block. -/
theorem blockAfter_withErrors (i : Instr) (b : Block) (ec ea : Bool) :
    (blockAfter i (b.withErrors ec ea)).withErrors (blockAfter i b).errCmd (blockAfter i b).errAcc = blockAfter i b := by
  cases i <;> rfl

/-- RD.STATUS alone returns the error bits. -/
theorem rdataAfter_withErrors {i : Instr} (h : ∀ x, i ≠ .rdStatus x) (b : Block) (ec ea : Bool) :
    rdataAfter i (b.withErrors ec ea) = rdataAfter i b := by
  cases i with
  | rdStatus x => exact absurd rfl (h x)
  | _ => rfl

/-- Settles O40: CLRERR and a reset clear both bits, the other instructions keep them, and only RD.STATUS looks at them. -/
theorem errorBitsLockNothing : Obligations.ErrorBitsLockNothing := by
  refine ⟨fun s => ⟨_, exec_eq_next _ s, rfl⟩, fun s => ⟨_, serve_eq_foldl s _, rfl⟩, fun i s t h hi => ?_,
    fun i s t ec ea h => ⟨_, exec_eq_next i _, ?_⟩⟩
  · obtain rfl := exec_next_inv h
    exact blockAfter_keeps_errors hi s.block
  · obtain rfl := exec_next_inv h
    exact ⟨blockAfter_withErrors i s.block ec ea, fun hi => rdataAfter_withErrors hi s.block ec ea⟩

/-! ## Error bits along a sequence (R189) -/

/-- An instruction other than CLRERR leaves no error bit set exactly when none was set and it raises none. -/
theorem blockAfter_noError_iff {i : Instr} (h : i ≠ .cmdClrerr) (b : Block) :
    (blockAfter i b).noError = true ↔ b.noError = true ∧ i.raisesError = false := by
  cases i with
  | cmdClrerr => exact absurd rfl h
  | cmdRsvd c => simp [Block.noError, Instr.raisesError]
  | accIllegal a => simp [Block.noError, Instr.raisesError]
  | _ => exact (and_iff_left rfl).symm

/-- `blockAfter_noError_iff` along a list of words. -/
theorem noError_foldl_served_iff {words : List TW} (h : ∀ tw ∈ words, decode tw ≠ .cmdClrerr) (s : State) :
    ((transactions words).foldl served s).block.noError = true ↔
      s.block.noError = true ∧ ∀ tw ∈ words, isMisuse tw = false := by
  induction words generalizing s with
  | nil => simp
  | cons tw words ih =>
    obtain ⟨htw, hwords⟩ := List.forall_mem_cons.mp h
    rw [transactions_cons, List.foldl_cons, ih hwords, served_txn_block, blockAfter_noError_iff htw,
      ← isMisuse_eq_raisesError, List.forall_mem_cons, and_assoc]

/-- Settles O41: at the start no error bit is set. -/
theorem errorBitsTellMisuse : Obligations.ErrorBitsTellMisuse := by
  intro s words hstart hwords
  refine ⟨_, serve_eq_foldl s _, ?_⟩
  rw [noError_foldl_served_iff hwords, and_iff_right hstart]

end Sys2Proof.Machine
end

section
/-!
SUPPORT. Reset and hazards (70_reset_and_hazards.md): the block a reset event and a power cycle leave, and the reset block as the end of every list of
inputs whose last is a reset.
-/
namespace Sys2Proof.Machine

/-! ## The block after a reset event and after a power cycle (R200, R202) -/

@[simp] theorem served_rst_block (s : State) : (served s .rst).block = Block.reset := rfl
@[simp] theorem served_powerCycle_block (s : State) :
    (served s .powerCycle).block = Block.ofTuple (Config.powerUpTuple s.powerCycles) := rfl
@[simp] theorem served_powerCycle_powerCycles (s : State) : (served s .powerCycle).powerCycles = s.powerCycles + 1 := rfl

/-- The state a reset leaves is the state INIT starts a message from (R101). -/
theorem blockAfter_cmdInit_reset : blockAfter .cmdInit Block.reset = Block.reset := by
  rw [blockAfter_cmdInit]
  rfl

/-- Settles O14: the step serves the reset event, and each register of the reset block is read off. -/
theorem resetEventSetsEveryRegister : Obligations.ResetEventSetsEveryRegister := by
  intro s rest hin
  exact ⟨_, step_cons hin, served_inputs _ .rst, by simp⟩

/-! ## A reset ends whatever came before (R201, R202, R207) -/

/-- A list of inputs that ends with a reset leaves the reset block, from every state. -/
theorem block_foldl_served_append_rst (s : State) (before : List Input) :
    ((before ++ [Input.rst]).foldl served s).block = Block.reset := by
  rw [List.foldl_concat, served_rst_block]

/-- Settles O16: the reset looks at nothing of the state it is served in, and INIT keeps the reset block. -/
theorem resetForgetsWhatCameBefore : Obligations.ResetForgetsWhatCameBefore := by
  intro s before
  have hreset := block_foldl_served_append_rst s before
  refine ⟨⟨_, serve_eq_foldl s _, hreset⟩, _, serve_eq_foldl s _, ?_⟩
  rw [List.append_cons, List.foldl_concat, served_txn_block, hreset, decode_cmdInit_word, blockAfter_cmdInit_reset]

/-- Settles O17: the power cycle is one more input before the reset. -/
theorem powerCycleNeedsAReset : Obligations.PowerCycleNeedsAReset := by
  intro s
  exact ⟨⟨_, serve_eq_foldl s _, served_powerCycle_block s, served_powerCycle_powerCycles s⟩,
    _, serve_eq_foldl s _, block_foldl_served_append_rst s [.powerCycle]⟩

end Sys2Proof.Machine
end
